-- ==== Sys2Proof/Word.lean ====
section
/-!
DEFINITION. The byte, the one word of CA1 (spec 00_scope.md R8, R13, R15: every register and every
memory cell is an unsigned byte), and the narrowing of an exact integer to a byte.
-/

namespace Sys2Proof

/-- An unsigned byte, 0 to 255 (R8, R13). -/
abbrev Byte := BitVec 8

/-- `v mod 256`: an exact integer reduced to a byte, the non-negative remainder (R14). -/
def narrow (v : Int) : Byte := BitVec.ofInt 8 v

end Sys2Proof
end

