-- ==== Sys2Proof/Syntax.lean ====
section
/-!
DEFINITION. The instructions of CA1 (spec 30_encoding.md R71 to R77, opcode_table.json): one
constructor per row of the opcode table. A register operand is the WHOLE operand byte (R76): a byte of 8 to
255 is legal syntax that faults when it executes (R89), so the constructors hold bytes.
-/

namespace Sys2Proof

/-- An instruction with its operand bytes: `rA` is byte 1, `rB` or `imm8` is byte 2 (R71 to R74). -/
inductive Instr where
  /-- R100 -/
  | nop
  /-- R101 -/
  | hlt
  /-- R171 -/
  | ret
  /-- R191 -/
  | iret
  /-- R160 -/
  | push (rA : Byte)
  /-- R161 -/
  | pop (rA : Byte)
  /-- R120 -/
  | prn (rA : Byte)
  /-- R121 -/
  | pra (rA : Byte)
  /-- R170 -/
  | call (rA : Byte)
  /-- R190 -/
  | int (rA : Byte)
  /-- R172 -/
  | jmp (rA : Byte)
  /-- R173 -/
  | jeq (rA : Byte)
  /-- R174 -/
  | jne (rA : Byte)
  /-- R140 -/
  | inc (rA : Byte)
  /-- R141 -/
  | dec (rA : Byte)
  /-- R110 -/
  | ldi (rA imm8 : Byte)
  /-- R111 -/
  | ld (rA rB : Byte)
  /-- R112 -/
  | st (rA rB : Byte)
  /-- R136 -/
  | add (rA rB : Byte)
  /-- R137 -/
  | sub (rA rB : Byte)
  /-- R138 -/
  | mul (rA rB : Byte)
  /-- R139 -/
  | div (rA rB : Byte)
  /-- R142 -/
  | cmp (rA rB : Byte)
  deriving DecidableEq, Repr

/-- The 23 mnemonics of the opcode map (R75): what the opcode byte alone selects. -/
inductive Mnemonic where
  | nop | hlt | ret | iret
  | push | pop | prn | pra | call | int | jmp | jeq | jne | inc | dec
  | ldi | ld | st | add | sub | mul | div | cmp
  deriving DecidableEq, Repr

/-- The four instruction formats (R71 to R74). -/
inductive Format where
  /-- One byte, no operand (R71). -/
  | z
  /-- Two bytes, one register operand (R72). -/
  | r
  /-- Three bytes, two register operands (R73). -/
  | rr
  /-- Three bytes, a register and an immediate (R74). -/
  | ri
  deriving DecidableEq, Repr

/-- The mnemonic of an instruction. -/
def Instr.mnemonic : Instr → Mnemonic
  | .nop => .nop
  | .hlt => .hlt
  | .ret => .ret
  | .iret => .iret
  | .push _ => .push
  | .pop _ => .pop
  | .prn _ => .prn
  | .pra _ => .pra
  | .call _ => .call
  | .int _ => .int
  | .jmp _ => .jmp
  | .jeq _ => .jeq
  | .jne _ => .jne
  | .inc _ => .inc
  | .dec _ => .dec
  | .ldi _ _ => .ldi
  | .ld _ _ => .ld
  | .st _ _ => .st
  | .add _ _ => .add
  | .sub _ _ => .sub
  | .mul _ _ => .mul
  | .div _ _ => .div
  | .cmp _ _ => .cmp

/-- The format of each instruction, the "Used by" lists of R71 to R74. -/
def Mnemonic.format : Mnemonic → Format
  | .nop | .hlt | .ret | .iret => .z
  | .prn | .pra | .inc | .dec | .push | .pop | .call | .jmp | .jeq | .jne | .int => .r
  | .ld | .st | .add | .sub | .mul | .div | .cmp => .rr
  | .ldi => .ri

/-- The operand bytes of an instruction in address order (R71 to R74). -/
def Instr.operands : Instr → List Byte
  | .nop | .hlt | .ret | .iret => []
  | .push a | .pop a | .prn a | .pra a | .call a | .int a | .jmp a | .jeq a | .jne a | .inc a | .dec a => [a]
  | .ldi a b | .ld a b | .st a b | .add a b | .sub a b | .mul a b | .div a b | .cmp a b => [a, b]

/-- The operand bytes that name a register, `rA` before `rB` (R72 to R74, R76). -/
def Instr.registerOperands (i : Instr) : List Byte :=
  match i.mnemonic.format with
  | .z => []
  | .r | .rr => i.operands
  | .ri => i.operands.take 1

end Sys2Proof
end

