-- ==== Sys2Proof/WellFormed.lean ====
section
/-!
DEFINITION. Well-formed instructions: every operand byte that names a register holds 0 to 7 (spec
30_encoding.md R72 to R74, "legal values 0..7"). An ill-formed instruction still decodes; it faults with
InvalidRegister when it executes (R76, R89).
-/

namespace Sys2Proof

/-- An operand byte that names a register of R0 to R7 (R76). -/
def namesRegister (b : Byte) : Bool := b.toNat < 8

/-- The first register operand, where the format has one, is legal (R72 to R74). -/
def Instr.firstRegisterLegal (i : Instr) : Bool := i.registerOperands.head?.all namesRegister

/-- The second register operand, where the format has one, is legal (R73). -/
def Instr.secondRegisterLegal (i : Instr) : Bool := (i.registerOperands.drop 1).head?.all namesRegister

/-- Both checks of an instruction's operands. -/
def Instr.wellFormed (i : Instr) : Bool := i.firstRegisterLegal && i.secondRegisterLegal

end Sys2Proof
end

