-- ==== Sys2Proof/Decode.lean ====
section
/-!
DEFINITION. The opcode map, the decoder and the encoder of CA1 (spec 30_encoding.md R70 to R81, R88
to R90). UNVERIFIED: the opcode byte values are the spec's decision D1 (log entry 5). The decoder is written from
the opcode map as a table, the encoder from the opcode of each mnemonic.
-/

namespace Sys2Proof

/-- The length an opcode byte encodes: `(op >> 6) + 1`, that is `op[7:6] + 1` (R70). -/
def opcodeLength (op : Byte) : Nat := (op >>> 6).toNat + 1

/-- The complete opcode map, a row per mnemonic in the order of R75; every byte it does not list is
illegal (R88). -/
def opcodeMap : List (Byte × Mnemonic) :=
  [(0x00, .nop), (0x01, .hlt), (0x11, .ret), (0x13, .iret)] ++
  [(0x45, .push), (0x46, .pop), (0x47, .prn), (0x48, .pra), (0x50, .call), (0x52, .int)] ++
  [(0x54, .jmp), (0x55, .jeq), (0x56, .jne), (0x65, .inc), (0x66, .dec)] ++
  [(0x82, .ldi), (0x83, .ld), (0x84, .st)] ++
  [(0xA0, .add), (0xA1, .sub), (0xA2, .mul), (0xA3, .div), (0xA7, .cmp)]

/-- The mnemonic an opcode byte selects, matched on the whole byte (R75, R78, R81). -/
def opcodeLookup (op : Byte) : Option Mnemonic := opcodeMap.lookup op

/-- The instruction of a mnemonic and its operand bytes: `opA` at `a + 1`, `opB` at `a + 2` (R16); an
operand the format does not have is not used. -/
def Mnemonic.instr (m : Mnemonic) (opA opB : Byte) : Instr :=
  match m with
  | .nop => .nop
  | .hlt => .hlt
  | .ret => .ret
  | .iret => .iret
  | .push => .push opA
  | .pop => .pop opA
  | .prn => .prn opA
  | .pra => .pra opA
  | .call => .call opA
  | .int => .int opA
  | .jmp => .jmp opA
  | .jeq => .jeq opA
  | .jne => .jne opA
  | .inc => .inc opA
  | .dec => .dec opA
  | .ldi => .ldi opA opB
  | .ld => .ld opA opB
  | .st => .st opA opB
  | .add => .add opA opB
  | .sub => .sub opA opB
  | .mul => .mul opA opB
  | .div => .div opA opB
  | .cmp => .cmp opA opB

/-- Why bytes decode to no instruction. -/
inductive DecodeError where
  /-- There is no opcode byte to read. -/
  | noOpcode
  /-- The opcode byte is not in the opcode map (R81, R88). -/
  | unknownOpcode (op : Byte)
  /-- Operand byte `k` (1 or 2) of the instruction with this opcode is not there to read (R80). -/
  | noOperand (op : Byte) (k : Nat)
  deriving DecidableEq, Repr

/-- Steps (3) to (6) of the tick (R79) over any source of bytes, `byte k` being the byte at the
instruction's address plus `k`: the opcode is looked up before any operand byte is read (R81), and only
the operand bytes the length names are read (R80). -/
def decodeWith (byte : Nat → Option Byte) : Except DecodeError Instr :=
  match byte 0 with
  | none => .error .noOpcode
  | some op =>
    match opcodeLookup op with
    | none => .error (.unknownOpcode op)
    | some m =>
      if opcodeLength op < 2 then .ok (m.instr 0 0)
      else
        match byte 1 with
        | none => .error (.noOperand op 1)
        | some opA =>
          if opcodeLength op < 3 then .ok (m.instr opA 0)
          else
            match byte 2 with
            | none => .error (.noOperand op 2)
            | some opB => .ok (m.instr opA opB)

/-- The opcode byte of each mnemonic (R75), the encoder's side of the opcode map. -/
def Mnemonic.opcode : Mnemonic → Byte
  | .nop => 0b00000000
  | .hlt => 0b00000001
  | .ret => 0b00010001
  | .iret => 0b00010011
  | .push => 0b01000101
  | .pop => 0b01000110
  | .prn => 0b01000111
  | .pra => 0b01001000
  | .call => 0b01010000
  | .int => 0b01010010
  | .jmp => 0b01010100
  | .jeq => 0b01010101
  | .jne => 0b01010110
  | .inc => 0b01100101
  | .dec => 0b01100110
  | .ldi => 0b10000010
  | .ld => 0b10000011
  | .st => 0b10000100
  | .add => 0b10100000
  | .sub => 0b10100001
  | .mul => 0b10100010
  | .div => 0b10100011
  | .cmp => 0b10100111

/-- The length of a mnemonic's instruction in bytes, decoded from its opcode (R70, R84). -/
def Mnemonic.length (m : Mnemonic) : Nat := opcodeLength m.opcode

/-- Decoding a list of bytes: the instruction at its front and the bytes after it, or why there is none. -/
def decode (bs : List Byte) : Except DecodeError (Instr × List Byte) :=
  match decodeWith (fun k => bs[k]?) with
  | .error e => .error e
  | .ok i => .ok (i, bs.drop i.mnemonic.length)

/-- The bytes of an instruction in address order: the opcode, then its operand bytes (R56, R70 to R74). -/
def encode (i : Instr) : List Byte := i.mnemonic.opcode :: i.operands

/-- The bytes of an instruction whose bits are `w`, of which the opcode table gives `nbits`, up to the
longest instruction: bits 7:0 are the byte at the lowest address, and every bit above `nbits` is 0. -/
def tableBytes (nbits w : Nat) : List Byte :=
  let v := w % 2 ^ nbits
  [BitVec.ofNat 8 v, BitVec.ofNat 8 (v / 2 ^ 8), BitVec.ofNat 8 (v / 2 ^ 16)]

/-- The instruction the decoder reads from an opcode-table word. -/
def decodeTableWord (nbits w : Nat) : Option Instr :=
  match decode (tableBytes nbits w) with
  | .ok (i, _) => some i
  | .error _ => none

end Sys2Proof
end

