-- ==== Sys2Proof/Config.lean ====
section
/-!
DEFINITION. The implementation parameters of CA1 and the reset values (spec 00_scope.md section 4,
70_reset_and_hazards.md R230). Every one of them is a value the spec states; the spec leaves no value
free, so this file holds no constant without a body.
-/

namespace Sys2Proof.Config

/-- `MEM_SIZE`, the number of bytes of memory (R10). UNVERIFIED: the value 256 is the spec's decision D2
(unsafe for a smaller memory; log entry 1). -/
def memSize : Nat := 256

/-- What a byte of memory reads as when nothing has written it: memory is zero-initialised (R53). -/
def unlistedByte : Byte := 0x00

/-- PC after reset (R28). -/
def resetPc : Byte := 0x00

/-- SP after reset (R35). -/
def resetSp : Byte := 0xF4

/-- R0 to R7 after reset (R24). UNVERIFIED: the spec's decision D4 (unsafe; log entry 2). -/
def resetGpr : Byte := 0x00

/-- FL after reset (R31). UNVERIFIED: the spec's decision D5 (unsafe; log entry 2). -/
def resetFl : Byte := 0x00

/-- IM after reset (R37). UNVERIFIED: the spec's decision D6 (unsafe; log entry 2). -/
def resetIm : Byte := 0x00

/-- IS after reset (R39). UNVERIFIED: the spec's decision D6 (unsafe; log entry 2). -/
def resetIs : Byte := 0x00

end Sys2Proof.Config
end

