-- ==== Sys2Proof/Machine/State.lean ====
section
/-!
DEFINITION. The state of CA1 as plain data (spec 10_state.md R20: the record
`(mem, x[0..7], pc, FL, SP, IM, IS, run, cause, out)`), the reasons a step could stop, and the state after
reset (70_reset_and_hazards.md R230).
-/

namespace Sys2Proof.Machine

/-- Memory, an ordered sequence of `size` bytes (R50). `cells` lists, by address, the bytes that differ
from what an unlisted address reads as (`Config.unlistedByte`, R53). DESIGN CHOICE of representation (log
entries 1 and 13). -/
structure Memory where
  size : Nat
  cells : List Host.Cell
  deriving DecidableEq, Repr

/-- The run state of the execution engine (R40). -/
inductive RunState where
  | running
  | halted
  deriving DecidableEq, Repr

/-- Why a machine halted (60_exceptions.md R200). -/
inductive HaltCode where
  /-- Code 0: HLT, not a fault (R101). -/
  | hlt
  /-- Code 1: an access outside memory (R202). -/
  | outOfBounds
  /-- Code 2: a register operand of 8 to 255 (R203). -/
  | invalidRegister
  /-- Code 3: DIV by zero (R205). -/
  | divideByZero
  /-- Code 4: an opcode outside the opcode map (R204). -/
  | unknownInstruction
  /-- Code 5: an ALU operation outside the seven (R206); no instruction raises it. -/
  | unknownAluOp
  /-- Code 6: INT with a line of 8 or more (R207). -/
  | invalidInterruptLine
  deriving DecidableEq, Repr

/-- The halt cause record (R42). -/
structure HaltCause where
  code : HaltCode
  /-- The address of the instruction that halted. -/
  pc : Byte
  /-- Its opcode byte; none for an OutOfBounds on the opcode fetch itself. -/
  op : Option Byte
  /-- The faulting address, register index, line number or opcode (R200); none for HLT. -/
  detail : Option Nat
  deriving DecidableEq, Repr

/-- The complete architectural state (R20). -/
structure State where
  /-- Memory (R50). -/
  mem : Memory
  /-- R0 to R7 (R21). -/
  regs : Vector Byte 8
  /-- The program counter PC (R25). -/
  pc : Byte
  /-- The flags register FL: bit 0 E, bit 1 G, bit 2 L (R29). -/
  fl : Byte
  /-- The stack pointer SP (R33). -/
  sp : Byte
  /-- The interrupt mask IM (R36). -/
  im : Byte
  /-- The interrupt status IS (R38). -/
  is : Byte
  /-- Running or Halted (R40). -/
  run : RunState
  /-- The halt cause, none while Running (R42, R230). DEDUCED (log entry 11). -/
  cause : Option HaltCause
  /-- The output stream, oldest code point first (R43). -/
  out : List Byte
  deriving DecidableEq, Repr

/-- The reasons a step stops with a host fault: there is none. Every fault of CA1 is a state the spec
describes, Halted with its cause (R201), and the model answers that state (log entry 3). No meaning, and no
step, raises a host fault; safe, since the effect the spec gives is modelled instead. -/
inductive Fault where
  deriving DecidableEq, Repr

/-- The reasons the model refuses. -/
inductive Refusal where
  /-- Raised by an arm of `exec` whose instruction has no meaning yet; no arm does. Safe. -/
  | notModelled (mnemonic : String)
  /-- Raised by the load port only (`State.load`), for a host write at or above `MEM_SIZE`, to which the
  core "gives no meaning (a model refuses such a load)" (R44). No instruction raises it. Safe. -/
  | loadOutsideMemory (addr : Nat)
  deriving DecidableEq, Repr

/-- The state of a newly created machine (R230). -/
def State.reset : State where
  mem := { size := Config.memSize, cells := [] }
  regs := Vector.replicate 8 Config.resetGpr
  pc := Config.resetPc
  fl := Config.resetFl
  sp := Config.resetSp
  im := Config.resetIm
  is := Config.resetIs
  run := .running
  cause := none
  out := []

end Sys2Proof.Machine
end

