-- ==== Sys2Proof/Machine/Ops.lean ====
section
/-!
DEFINITION. The named operations of CA1 over memory, registers, the stack and the output stream (spec
00_scope.md R14, 20_memory.md R51, R52, R58, R59), what a fault does (60_exceptions.md R201), and how the
tick ends an instruction (30_encoding.md R79 steps (7) to (9)).
-/

namespace Sys2Proof.Machine

/-! ## Memory -/

/-- The byte a list of cells holds at an address: the first entry of that address, and what an
unlisted address reads as where there is none (R53). -/
def cellAt (a : Nat) : List Host.Cell → Byte
  | [] => Config.unlistedByte
  | (k, v) :: cs => if k = a then v else cellAt a cs

/-- The cells with byte `b` listed at address `a`, before the first larger address. -/
def insertCell (a : Nat) (b : Byte) : List Host.Cell → List Host.Cell
  | [] => [(a, b)]
  | (k, v) :: cs =>
    if a < k then (a, b) :: (k, v) :: cs
    else if k = a then (a, b) :: cs
    else (k, v) :: insertCell a b cs

/-- The cells without an entry of address `a`. -/
def removeCell (a : Nat) (cs : List Host.Cell) : List Host.Cell := cs.filter (fun c => c.1 ≠ a)

/-- The cells after byte `b` is stored at `a`: a byte equal to what an unlisted address reads as is not
listed. -/
def putCell (a : Nat) (b : Byte) (cs : List Host.Cell) : List Host.Cell :=
  if b = Config.unlistedByte then removeCell a cs else insertCell a b cs

/-- The canonical form of cells from address `lo` on: addresses strictly rising and below `size`, no
entry equal to what an unlisted address reads as. -/
def cellsWf (lo size : Nat) : List Host.Cell → Bool
  | [] => true
  | (a, b) :: cs => lo ≤ a && a < size && b ≠ Config.unlistedByte && cellsWf (a + 1) size cs

/-- Memory is in its canonical form, and its size is one the spec admits, 1 to 256 (R10). -/
def Memory.wf (m : Memory) : Bool := 1 ≤ m.size && m.size ≤ 256 && cellsWf 0 m.size m.cells

/-- The byte at an address of memory, none outside `[0, MEM_SIZE)` (R51). -/
def Memory.read (m : Memory) (a : Nat) : Option Byte :=
  if a < m.size then some (cellAt a m.cells) else none

/-- Memory after byte `b` is stored at `a`, none outside `[0, MEM_SIZE)` (R52). -/
def Memory.write (m : Memory) (a : Nat) (b : Byte) : Option Memory :=
  if a < m.size then some { m with cells := putCell a b m.cells } else none

/-! ## Registers, the output stream and the status port -/

/-- `x[i]`, a general register (R14, R22). -/
def State.reg (s : State) (i : Fin 8) : Byte := s.regs[i]

/-- `x[i] <- v` (R14, R22, R23). -/
def State.setReg (s : State) (i : Fin 8) (v : Byte) : State := { s with regs := s.regs.set i v }

/-- `pc <- v` (R14). -/
def State.setPc (s : State) (v : Byte) : State := { s with pc := v }

/-- `SP <- v` (R14). -/
def State.setSp (s : State) (v : Byte) : State := { s with sp := v }

/-- `FL <- v` (R14). -/
def State.setFl (s : State) (v : Byte) : State := { s with fl := v }

/-- `IS <- v` (R14). -/
def State.setIs (s : State) (v : Byte) : State := { s with is := v }

/-- Memory replaced. -/
def State.setMem (s : State) (m : Memory) : State := { s with mem := m }

/-- `Emit(c)` for each code point of `cs` in order (R14, R43). -/
def State.emit (s : State) (cs : List Byte) : State := { s with out := s.out ++ cs }

/-- The status port (R47): the run state and the halt cause. -/
def State.status (s : State) : RunState × Option HaltCause := (s.run, s.cause)

/-! ## Faults and halting -/

/-- The numeric halt codes (R200). -/
def HaltCode.number : HaltCode → Nat
  | .hlt => 0
  | .outOfBounds => 1
  | .invalidRegister => 2
  | .divideByZero => 3
  | .unknownInstruction => 4
  | .unknownAluOp => 5
  | .invalidInterruptLine => 6

/-- `raise <Fault>(info)` (R14): the fault's code and the detail it records (R200). -/
structure Raise where
  code : HaltCode
  detail : Nat
  deriving DecidableEq, Repr

/-- Entering Halted: `run <- Halted; cause <- c` and no other change (R42, R101, R201). -/
def State.halt (s : State) (c : HaltCause) : State := { s with run := .halted, cause := some c }

/-- TAKING A FAULT (R201), the one shared operation: from the state before the instruction, only the run
state and the cause change; the cause's pc is the instruction's address, which PC keeps. Nothing returns from
a fault (R210, R211). -/
def State.takeFault (s : State) (op : Option Byte) (e : Raise) : State :=
  s.halt { code := e.code, pc := s.pc, op := op, detail := some e.detail }

/-- `MemRead(addr, 1)` as an instruction's rule uses it (R51). -/
def memRead (s : State) (addr : Nat) : Except Raise Byte :=
  match s.mem.read addr with
  | some b => .ok b
  | none => .error { code := .outOfBounds, detail := addr }

/-- `MemWrite(addr, 1, v)` as an instruction's rule uses it (R52). -/
def memWrite (s : State) (addr : Nat) (v : Byte) : Except Raise State :=
  match s.mem.write addr v with
  | some m => .ok (s.setMem m)
  | none => .error { code := .outOfBounds, detail := addr }

/-! ## The stack manager -/

/-- `Push(v)`: decrement SP modulo 256, write `v` at SP (R58). -/
def push (s : State) (v : Byte) : Except Raise State :=
  let sp := narrow (s.sp.toNat - 1)
  memWrite (s.setSp sp) sp.toNat v

/-- `Pop()`: read the byte at SP, increment SP modulo 256 (R59). -/
def pop (s : State) : Except Raise (Byte × State) := do
  let v ← memRead s s.sp.toNat
  .ok (v, s.setSp (narrow (s.sp.toNat + 1)))

/-! ## The end of an instruction -/

/-- What an instruction's rule comes to when it raises nothing (R79 step (7)). -/
inductive Flow where
  /-- It neither halted nor redirected; the tick advances PC (R84). -/
  | advance (t : State)
  /-- It wrote PC itself (R85). -/
  | redirect (t : State)
  /-- It halts (HLT, R101). -/
  | halt

/-- Steps (7) to (9) of the tick (R79) for the instruction `m` at the state `s` before it: a fault is
taken from `s`, so none of the rule's writes stands (R86, R201); HLT halts with code 0 and leaves PC;
a rule that did not redirect has PC advanced by the length (R84). -/
def conclude (m : Mnemonic) (s : State) (r : Except Raise Flow) : Host.Outcome State Fault Refusal :=
  match r with
  | .error e => .next (s.takeFault (some m.opcode) e)
  | .ok .halt => .next (s.halt { code := .hlt, pc := s.pc, op := some m.opcode, detail := none })
  | .ok (.advance t) => .next (t.setPc (narrow (s.pc.toNat + m.length)))
  | .ok (.redirect t) => .next t

/-! ## The load port -/

/-- The load port: the host stores byte `b` at `a` before the first tick (10_state.md R44); outside memory
the load is refused. -/
def State.load (s : State) (a : Nat) (b : Byte) : Host.Outcome State Fault Refusal :=
  match s.mem.write a b with
  | some m => .next (s.setMem m)
  | none => .refused (.loadOutsideMemory a)

/-- A sequence of loads, a later one replacing an earlier one of the same address (70_reset_and_hazards.md
R233). -/
def State.loadAll (s : State) : List Host.Cell → Host.Outcome State Fault Refusal
  | [] => .next s
  | (a, b) :: cs =>
    match s.load a b with
    | .next t => t.loadAll cs
    | .fault r => .fault r
    | .refused r => .refused r

end Sys2Proof.Machine
end

