-- ==== Sys2Proof/Machine/Flags.lean ====
section
/-!
DEFINITION. The flags register (spec 10_state.md R29 to R32; 43_alu.md R133, R142): E is bit 0, G is bit
1, L is bit 2; bits 7:3 are never written.
-/

namespace Sys2Proof.Machine

/-- The bit of FL that holds E (R29). -/
def flagE : Nat := 0

/-- The bit of FL that holds G (R29). -/
def flagG : Nat := 1

/-- The bit of FL that holds L (R29). -/
def flagL : Nat := 2

/-- `getFlag(bit)` (R32). -/
def getFlag (fl : Byte) (bit : Nat) : Bool := fl.getLsbD bit

/-- `setFlag(bit, boolean)`: sets or clears one bit of FL (R30). -/
def setFlag (fl : Byte) (bit : Nat) (v : Bool) : Byte :=
  if v then fl ||| (1 : Byte) <<< bit else fl &&& ~~~((1 : Byte) <<< bit)

/-- The three flag writes of CMP, E then G then L (R142). -/
def setCompareFlags (fl : Byte) (e g l : Bool) : Byte :=
  setFlag (setFlag (setFlag fl flagE e) flagG g) flagL l

end Sys2Proof.Machine
end

