-- ==== Sys2Proof/Machine/Operands.lean ====
section
/-!
DEFINITION. The operand forms of CA1 (spec 30_encoding.md R76, R77, R83; 41_load_store.md R113): a
register operand, an immediate byte (used as it is, R77), and the one memory operand, register-indirect.
-/

namespace Sys2Proof.Machine

/-- A register operand: the whole byte is the index; 8 to 255 raises InvalidRegister with the byte as its
detail (R22, R76, R203). -/
def regOperand (b : Byte) : Except Raise (Fin 8) :=
  if h : b.toNat < 8 then .ok ⟨b.toNat, h⟩ else .error { code := .invalidRegister, detail := b.toNat }

/-- The two register operands of format RR, `rA` checked before `rB` (R83). -/
def regOperands (rA rB : Byte) : Except Raise (Fin 8 × Fin 8) := do
  let a ← regOperand rA
  let b ← regOperand rB
  .ok (a, b)

/-- The effective address of a memory operand: the full value of a general register, with no offset or
scaling (R113). -/
def State.address (s : State) (i : Fin 8) : Nat := (s.reg i).toNat

end Sys2Proof.Machine
end

