-- ==== Sys2Proof/Machine/Alu.lean ====
section
/-!
DEFINITION. The ALU as a pure function (spec 43_alu.md R130 to R134) and the seven instructions that
use it (R135 to R142).
-/

namespace Sys2Proof.Machine

/-- The ALU's operation codes: the seven of R130, and every code outside them (R134). The decoder passes
only the seven (30_encoding.md R82). -/
inductive AluOp where
  | add | sub | mul | div | inc | dec | cmp
  /-- A code outside the seven, which fails with UnknownALUOp (R134). DESIGN CHOICE: the spec gives the code
  no form; here it is a number (log entry 8). -/
  | other (code : Nat)
  deriving DecidableEq, Repr

/-- What the ALU returns: a byte, or the flag update of CMP (R130). -/
inductive AluResult where
  | byte (v : Byte)
  | flags (e g l : Bool)
  deriving DecidableEq, Repr

/-- How the ALU fails. -/
inductive AluError where
  /-- `DIV(a, 0)` has no value (R132). -/
  | divideByZero
  /-- An operation outside the seven (R134). -/
  | unknownOp (code : Nat)
  deriving DecidableEq, Repr

/-- The ALU (R130): computed on unbounded integers and reduced modulo 256 (R131), division truncating
(R132), comparison unsigned (R133). INC and DEC do not use the second operand. -/
def alu (op : AluOp) (a b : Byte) : Except AluError AluResult :=
  match op with
  | .add => .ok (.byte (narrow (a.toNat + b.toNat)))
  | .sub => .ok (.byte (narrow (a.toNat - b.toNat)))
  | .mul => .ok (.byte (narrow (a.toNat * b.toNat)))
  | .div => if b.toNat = 0 then .error .divideByZero else .ok (.byte (narrow ((a.toNat / b.toNat : Nat) : Int)))
  | .inc => .ok (.byte (narrow (a.toNat + 1)))
  | .dec => .ok (.byte (narrow (a.toNat - 1)))
  | .cmp => .ok (.flags (a.toNat = b.toNat) (a.toNat > b.toNat) (a.toNat < b.toNat))
  | .other code => .error (.unknownOp code)

/-- An instruction's use of the ALU (R130): a byte goes to the destination register, a flag update to FL,
and a failure is the fault of R134 or R205, whose detail is the operation code or the divisor's register
index (60_exceptions.md R200). -/
def aluApply (op : AluOp) (dest second : Fin 8) (s : State) : Except Raise Flow :=
  match alu op (s.reg dest) (s.reg second) with
  | .ok (.byte v) => .ok (.advance (s.setReg dest v))
  | .ok (.flags e g l) => .ok (.advance (s.setFl (setCompareFlags s.fl e g l)))
  | .error .divideByZero => .error { code := .divideByZero, detail := second }
  | .error (.unknownOp code) => .error { code := .unknownAluOp, detail := code }

/-- The rule of an ALU instruction of format RR. -/
def aluBinary (op : AluOp) (rA rB : Byte) (s : State) : Except Raise Flow := do
  let (a, b) ← regOperands rA rB
  aluApply op a b s

/-- The rule of an ALU instruction of format R. -/
def aluUnary (op : AluOp) (rA : Byte) (s : State) : Except Raise Flow := do
  let a ← regOperand rA
  aluApply op a a s

/-- ADD (R136). -/
def execAdd (rA rB : Byte) (s : State) : Host.Outcome State Fault Refusal :=
  conclude .add s (aluBinary .add rA rB s)

/-- SUB (R137). -/
def execSub (rA rB : Byte) (s : State) : Host.Outcome State Fault Refusal :=
  conclude .sub s (aluBinary .sub rA rB s)

/-- MUL (R138). -/
def execMul (rA rB : Byte) (s : State) : Host.Outcome State Fault Refusal :=
  conclude .mul s (aluBinary .mul rA rB s)

/-- DIV (R139). -/
def execDiv (rA rB : Byte) (s : State) : Host.Outcome State Fault Refusal :=
  conclude .div s (aluBinary .div rA rB s)

/-- INC (R140). -/
def execInc (rA : Byte) (s : State) : Host.Outcome State Fault Refusal :=
  conclude .inc s (aluUnary .inc rA s)

/-- DEC (R141). -/
def execDec (rA : Byte) (s : State) : Host.Outcome State Fault Refusal :=
  conclude .dec s (aluUnary .dec rA s)

/-- CMP (R142). -/
def execCmp (rA rB : Byte) (s : State) : Host.Outcome State Fault Refusal :=
  conclude .cmp s (aluBinary .cmp rA rB s)

end Sys2Proof.Machine
end

