-- ==== Sys2Proof/Machine/Control.lean ====
section
/-!
DEFINITION. CALL, RET, JMP, JEQ and JNE (spec 45_control.md R170 to R177).
-/

namespace Sys2Proof.Machine

/-- CALL (R170): push the address of the next instruction, then go to `x[rA]`; the target is read before
the push. -/
def execCall (rA : Byte) (s : State) : Host.Outcome State Fault Refusal :=
  conclude .call s do
    let a ← regOperand rA
    let target := s.reg a
    let t ← push s (narrow (s.pc.toNat + Mnemonic.call.length))
    .ok (.redirect (t.setPc target))

/-- RET (R171): `pc <- Pop()`. -/
def execRet (s : State) : Host.Outcome State Fault Refusal :=
  conclude .ret s do
    let (v, t) ← pop s
    .ok (.redirect (t.setPc v))

/-- JMP (R172): `pc <- x[rA]`. -/
def execJmp (rA : Byte) (s : State) : Host.Outcome State Fault Refusal :=
  conclude .jmp s do
    let a ← regOperand rA
    .ok (.redirect (s.setPc (s.reg a)))

/-- A jump taken when a condition holds; the register operand is checked either way (R173, R174). -/
def jumpIf (taken : Bool) (rA : Byte) (s : State) : Except Raise Flow := do
  let a ← regOperand rA
  if taken then .ok (.redirect (s.setPc (s.reg a))) else .ok (.advance s)

/-- JEQ (R173): jump when E is 1. -/
def execJeq (rA : Byte) (s : State) : Host.Outcome State Fault Refusal :=
  conclude .jeq s (jumpIf (getFlag s.fl flagE) rA s)

/-- JNE (R174): jump when E is 0. -/
def execJne (rA : Byte) (s : State) : Host.Outcome State Fault Refusal :=
  conclude .jne s (jumpIf (!getFlag s.fl flagE) rA s)

end Sys2Proof.Machine
end

