-- ==== Sys2Proof/Machine/Interrupt.lean ====
section
/-!
DEFINITION. INT and IRET (spec 46_interrupt.md R190 to R193). No interrupt is ever delivered (R193).
-/

namespace Sys2Proof.Machine

/-- INT (R190): `IS <- IS | (1 << x[rA])`; a line of 8 or more raises InvalidInterruptLine (R207). -/
def execInt (rA : Byte) (s : State) : Host.Outcome State Fault Refusal :=
  conclude .int s do
    let a ← regOperand rA
    let n := (s.reg a).toNat
    if n < 8 then .ok (.advance (s.setIs (s.is ||| (1 : Byte) <<< n)))
    else .error { code := .invalidInterruptLine, detail := n }

/-- The registers IRET pops, in order: R7 first, R0 last (R191). UNVERIFIED: the spec's decision D13
(log entry 5). -/
def iretOrder : List (Fin 8) := [7, 6, 5, 4, 3, 2, 1, 0]

/-- `x[i] <- Pop()` for each register of a list in order (R191). -/
def popRegs : List (Fin 8) → State → Except Raise State
  | [], s => .ok s
  | i :: rest, s => do
    let (v, t) ← pop s
    popRegs rest (t.setReg i v)

/-- IRET (R191): eight registers, then `pc <- Pop()`. -/
def execIret (s : State) : Host.Outcome State Fault Refusal :=
  conclude .iret s do
    let t ← popRegs iretOrder s
    let (v, u) ← pop t
    .ok (.redirect (u.setPc v))

end Sys2Proof.Machine
end

