-- ==== Sys2Proof/Machine/LoadStore.lean ====
section
/-!
DEFINITION. LDI, LD and ST (spec 41_load_store.md R110 to R113).
-/

namespace Sys2Proof.Machine

/-- LDI (R110): `x[rA] <- imm8`. -/
def execLdi (rA imm8 : Byte) (s : State) : Host.Outcome State Fault Refusal :=
  conclude .ldi s do
    let a ← regOperand rA
    .ok (.advance (s.setReg a imm8))

/-- LD (R111): `x[rA] <- MemRead(x[rB], 1)`. -/
def execLd (rA rB : Byte) (s : State) : Host.Outcome State Fault Refusal :=
  conclude .ld s do
    let (a, b) ← regOperands rA rB
    let v ← memRead s (s.address b)
    .ok (.advance (s.setReg a v))

/-- ST (R112): `MemWrite(x[rA], 1, x[rB])`. -/
def execSt (rA rB : Byte) (s : State) : Host.Outcome State Fault Refusal :=
  conclude .st s do
    let (a, b) ← regOperands rA rB
    let t ← memWrite s (s.address a) (s.reg b)
    .ok (.advance t)

end Sys2Proof.Machine
end

