-- ==== Sys2Proof/Machine/Output.lean ====
section
/-!
DEFINITION. PRN and PRA (spec 42_output.md R120 to R123).
-/

namespace Sys2Proof.Machine

/-- The code point PRN appends after the numeral: line feed (R122). UNVERIFIED: the spec's decision D17
(log entry 5). -/
def lineTerminator : Byte := 0x0A

/-- The ASCII code point of a decimal digit (R122). -/
def digit (d : Nat) : Byte := BitVec.ofNat 8 (0x30 + d)

/-- `decimal(v)`: the digits of `v` in base 10, most significant first, no leading zeros (R122). -/
def decimal (v : Byte) : List Byte :=
  (if 100 ≤ v.toNat then [digit (v.toNat / 100)] else []) ++
  (if 10 ≤ v.toNat then [digit (v.toNat / 10 % 10)] else []) ++
  [digit (v.toNat % 10)]

/-- PRN (R120): the numeral of `x[rA]`, then the line terminator. -/
def execPrn (rA : Byte) (s : State) : Host.Outcome State Fault Refusal :=
  conclude .prn s do
    let a ← regOperand rA
    .ok (.advance (s.emit (decimal (s.reg a) ++ [lineTerminator])))

/-- PRA (R121): the one code point equal to `x[rA]`. -/
def execPra (rA : Byte) (s : State) : Host.Outcome State Fault Refusal :=
  conclude .pra s do
    let a ← regOperand rA
    .ok (.advance (s.emit [s.reg a]))

end Sys2Proof.Machine
end

