-- ==== Sys2Proof/Machine/Stack.lean ====
section
/-!
DEFINITION. PUSH and POP (spec 44_stack.md R160, R161).
-/

namespace Sys2Proof.Machine

/-- PUSH (R160): `Push(x[rA])`. -/
def execPush (rA : Byte) (s : State) : Host.Outcome State Fault Refusal :=
  conclude .push s do
    let a ← regOperand rA
    let t ← push s (s.reg a)
    .ok (.advance t)

/-- POP (R161): `x[rA] <- Pop()`. -/
def execPop (rA : Byte) (s : State) : Host.Outcome State Fault Refusal :=
  conclude .pop s do
    let a ← regOperand rA
    let (v, t) ← pop s
    .ok (.advance (t.setReg a v))

end Sys2Proof.Machine
end

