-- ==== Sys2Proof/Machine/System.lean ====
section
/-!
DEFINITION. NOP and HLT (spec 40_system.md R100, R101).
-/

namespace Sys2Proof.Machine

/-- NOP (R100): nothing but the advance. -/
def execNop (s : State) : Host.Outcome State Fault Refusal := conclude .nop s (.ok (.advance s))

/-- HLT (R101): Halted with code 0, PC at the HLT address. -/
def execHlt (s : State) : Host.Outcome State Fault Refusal := conclude .hlt s (.ok .halt)

end Sys2Proof.Machine
end

