-- ==== Sys2Proof/Machine/Dispatch.lean ====
section
/-!
DEFINITION. Dispatch: the exhaustive match over the instructions of CA1 (spec 30_encoding.md R82). An arm
is the instruction's rule with the end of its tick (R79 steps (7) to (9)).
-/

namespace Sys2Proof.Machine

/-- The execution of a decoded instruction at the state before it. -/
def exec (i : Instr) (s : State) : Host.Outcome State Fault Refusal :=
  match i with
  | .nop => Sys2Proof.Machine.execNop s
  | .hlt => Sys2Proof.Machine.execHlt s
  | .ret => Sys2Proof.Machine.execRet s
  | .iret => Sys2Proof.Machine.execIret s
  | .push rA => Sys2Proof.Machine.execPush rA s
  | .pop rA => Sys2Proof.Machine.execPop rA s
  | .prn rA => Sys2Proof.Machine.execPrn rA s
  | .pra rA => Sys2Proof.Machine.execPra rA s
  | .call rA => Sys2Proof.Machine.execCall rA s
  | .int rA => Sys2Proof.Machine.execInt rA s
  | .jmp rA => Sys2Proof.Machine.execJmp rA s
  | .jeq rA => Sys2Proof.Machine.execJeq rA s
  | .jne rA => Sys2Proof.Machine.execJne rA s
  | .inc rA => Sys2Proof.Machine.execInc rA s
  | .dec rA => Sys2Proof.Machine.execDec rA s
  | .ldi rA imm8 => Sys2Proof.Machine.execLdi rA imm8 s
  | .ld rA rB => Sys2Proof.Machine.execLd rA rB s
  | .st rA rB => Sys2Proof.Machine.execSt rA rB s
  | .add rA rB => Sys2Proof.Machine.execAdd rA rB s
  | .sub rA rB => Sys2Proof.Machine.execSub rA rB s
  | .mul rA rB => Sys2Proof.Machine.execMul rA rB s
  | .div rA rB => Sys2Proof.Machine.execDiv rA rB s
  | .cmp rA rB => Sys2Proof.Machine.execCmp rA rB s

end Sys2Proof.Machine
end

