-- ==== Sys2Proof/Machine/Tick.lean ====
section
/-!
DEFINITION. The tick (spec 30_encoding.md R79 to R87): fetch and decode at PC, then the instruction, with
the faults of the fetch (R80, R81; 60_exceptions.md R202, R204).
-/

namespace Sys2Proof.Machine

/-- The fault a fetch that decodes to nothing raises, with the opcode it records (R80, R81, R201): the
address of the byte that is not there, or the unknown opcode. -/
def fetchFault (s : State) : DecodeError → State
  | .noOpcode => s.takeFault none { code := .outOfBounds, detail := s.pc.toNat }
  | .unknownOpcode op => s.takeFault (some op) { code := .unknownInstruction, detail := op.toNat }
  | .noOperand op k => s.takeFault (some op) { code := .outOfBounds, detail := s.pc.toNat + k }

/-- Steps (2) to (6) of the tick: the bytes at `a`, `a + 1` and `a + 2`, plain integers not reduced
modulo 256 (R80), through the one decoder. -/
def fetch (s : State) : Except DecodeError Instr := decodeWith (fun k => s.mem.read (s.pc.toNat + k))

/-- One tick (R79): no effect on a Halted machine (step (1), 10_state.md R40, R45), else the fetched
instruction or the fetch's fault. DEDUCED: the tick of a Halted machine is the unchanged state (log entry 4). -/
def tick (s : State) : Host.Outcome State Fault Refusal :=
  match s.run with
  | .halted => .next s
  | .running =>
    match fetch s with
    | .error e => .next (fetchFault s e)
    | .ok i => exec i s

/-- Bytes stored from an address on, those that fall inside memory. -/
def placeBytes (m : Memory) (a : Nat) : List Byte → Memory
  | [] => m
  | b :: bs => placeBytes ((m.write a b).getD m) (a + 1) bs

/-- The bytes stored at PC in a machine that can run: Running, with no halt cause. DESIGN CHOICE: this is no
operation of the core; it stands for the loader (log entry 7). -/
def placeAtPc (s : State) (bs : List Byte) : State :=
  { s with mem := placeBytes s.mem s.pc.toNat bs, run := .running, cause := none }

end Sys2Proof.Machine
end

