-- ==== Sys2Proof/Machine/Step.lean ====
section
/-!
DEFINITION. One step of CA1 is one tick (spec 10_state.md R45, 30_encoding.md R87).
-/

namespace Sys2Proof.Machine

/-- One step: one tick (R79). -/
def step : State → Host.Outcome State Fault Refusal := tick

/-- The state with an opcode-table word stored where the next tick fetches it, able to run. -/
def State.withFetchWord (s : State) (nbits w : Nat) : State := placeAtPc s (tableBytes nbits w)

end Sys2Proof.Machine
end

