-- ==== Sys2Proof/Machine/Assembly.lean ====
section
/-!
DEFINITION. The assembler syntax of CA1 (spec 30_encoding.md R91, R92): what a line of text stands for, and the
line that spells an instruction. No tick reads text. UNVERIFIED: the grammar is the spec's decision D21 (log
entry 5); where R91 says nothing (extra spaces, the case of a hexadecimal digit, leading zeros), log entry 12.
-/

namespace Sys2Proof.Machine

/-- A mnemonic as it is written. -/
def mnemonicText : Mnemonic → List Char
  | .nop => ['N', 'O', 'P']
  | .hlt => ['H', 'L', 'T']
  | .ret => ['R', 'E', 'T']
  | .iret => ['I', 'R', 'E', 'T']
  | .push => ['P', 'U', 'S', 'H']
  | .pop => ['P', 'O', 'P']
  | .prn => ['P', 'R', 'N']
  | .pra => ['P', 'R', 'A']
  | .call => ['C', 'A', 'L', 'L']
  | .int => ['I', 'N', 'T']
  | .jmp => ['J', 'M', 'P']
  | .jeq => ['J', 'E', 'Q']
  | .jne => ['J', 'N', 'E']
  | .inc => ['I', 'N', 'C']
  | .dec => ['D', 'E', 'C']
  | .ldi => ['L', 'D', 'I']
  | .ld => ['L', 'D']
  | .st => ['S', 'T']
  | .add => ['A', 'D', 'D']
  | .sub => ['S', 'U', 'B']
  | .mul => ['M', 'U', 'L']
  | .div => ['D', 'I', 'V']
  | .cmp => ['C', 'M', 'P']

/-- The mnemonic a word is, if it is one (R91; R92: there is no other word). -/
def mnemonicOfText (w : List Char) : Option Mnemonic := (opcodeMap.map (·.2)).find? (fun m => mnemonicText m = w)

/-- The value of a digit character in a base of up to 16. -/
def digitValue (base : Nat) (c : Char) : Option Nat :=
  let n := c.toNat
  let v := if 0x30 ≤ n ∧ n ≤ 0x39 then n - 0x30
    else if 0x41 ≤ n ∧ n ≤ 0x46 then n - 0x37
    else if 0x61 ≤ n ∧ n ≤ 0x66 then n - 0x57
    else 16
  if v < base then some v else none

/-- The value of a non-empty numeral in a base, after the digits already read. -/
def numeralFrom (base : Nat) (n : Nat) : List Char → Option Nat
  | [] => some n
  | c :: cs => (digitValue base c).bind fun d => numeralFrom base (n * base + d) cs

/-- A numeral with at least one digit. -/
def numeral (base : Nat) (w : List Char) : Option Nat := if w = [] then none else numeralFrom base 0 w

/-- An immediate: 0 to 255 in decimal, `0x` hexadecimal or `0b` binary (R91). -/
def immediateOfText (w : List Char) : Option Byte :=
  let n := match w with
    | '0' :: 'x' :: ds => numeral 16 ds
    | '0' :: 'b' :: ds => numeral 2 ds
    | ds => numeral 10 ds
  n.bind fun v => if v < 256 then some (BitVec.ofNat 8 v) else none

/-- A register name, `R0` to `R7` (R91). -/
def registerOfText : List Char → Option Byte
  | ['R', c] => (digitValue 8 c).map (BitVec.ofNat 8)
  | _ => none

/-- A text cut at every occurrence of a character. -/
def cutAt (c : Char) : List Char → List (List Char)
  | [] => [[]]
  | x :: xs =>
    match cutAt c xs with
    | [] => [[x]]
    | w :: ws => if x = c then [] :: w :: ws else (x :: w) :: ws

/-- A text without the spaces at its two ends. -/
def trimSpaces (w : List Char) : List Char :=
  ((w.dropWhile (· = ' ')).reverse.dropWhile (· = ' ')).reverse

/-- The instruction a line stands for, if it is one: the mnemonic, then its operands separated by a comma, the
first written operand in byte 1 and the second in byte 2 (R91). -/
def assemble (line : List Char) : Option Instr :=
  let body := trimSpaces line
  (mnemonicOfText (body.takeWhile (· ≠ ' '))).bind fun m =>
    let rest := trimSpaces (body.dropWhile (· ≠ ' '))
    let operands := if rest = [] then [] else (cutAt ',' rest).map trimSpaces
    match m.format, operands with
    | .z, [] => some (m.instr 0 0)
    | .r, [a] => (registerOfText a).map fun rA => m.instr rA 0
    | .rr, [a, b] => (registerOfText a).bind fun rA => (registerOfText b).map fun rB => m.instr rA rB
    | .ri, [a, b] => (registerOfText a).bind fun rA => (immediateOfText b).map fun v => m.instr rA v
    | _, _ => none

/-- The decimal numeral of a byte as characters. -/
def decimalText (v : Byte) : List Char := (decimal v).map fun c => Char.ofNat c.toNat

/-- The line that spells a well-formed instruction, its immediate in decimal (R91); an ill-formed one has no
spelling, and the line of one is refused by `assemble`. -/
def disassemble (i : Instr) : List Char :=
  let register := fun b => 'R' :: decimalText b
  mnemonicText i.mnemonic ++
    match i.mnemonic.format, i.operands with
    | .r, [a] => ' ' :: register a
    | .rr, [a, b] => ' ' :: register a ++ [',', ' '] ++ register b
    | .ri, [a, b] => ' ' :: register a ++ [',', ' '] ++ decimalText b
    | _, _ => []

end Sys2Proof.Machine
end

