-- ==== Sys2Proof/Safety.lean ====
section
/-!
DEFINITION. What counts as a legal state and a safe run of CA1, and the comparisons of two states that
frame statements are made of.
-/

namespace Sys2Proof.Machine

/-! ## Outcomes -/

/-- An outcome with its next state changed by `f`. -/
def mapNext (f : State → State) : Host.Outcome State Fault Refusal → Host.Outcome State Fault Refusal
  | .next t => .next (f t)
  | .fault r => .fault r
  | .refused r => .refused r

/-- The next state of an outcome, if it is one. -/
def nextState? : Host.Outcome State Fault Refusal → Option State
  | .next t => some t
  | .fault _ => none
  | .refused _ => none

/-! ## The invariant -/

/-- FL holds no flag or exactly one of E, G, L, and nothing in bits 7:3 (R30, R31, R142). -/
def legalFlags (fl : Byte) : Prop := fl = 0x00 ∨ fl = 0x01 ∨ fl = 0x02 ∨ fl = 0x04

/-- A Running machine has no halt cause (R42, R230); a Halted one has a cause whose pc is PC (R101, R201),
whose opcode is missing only for an OutOfBounds on the opcode fetch (R42), whose detail is missing exactly for
HLT (R200), and whose code is not UnknownALUOp (R206). -/
def legalCause (s : State) : Prop :=
  (s.run = .running ∧ s.cause = none) ∨
  (s.run = .halted ∧ ∃ c, s.cause = some c ∧ c.pc = s.pc ∧ (c.op = none → c.code = .outOfBounds) ∧
    (c.detail = none ↔ c.code = .hlt) ∧ c.code ≠ .unknownAluOp)

/-- The invariant of the machine: memory in canonical form with an admitted size, legal flags, and a halt
cause that agrees with the run state. -/
def CoreInv (s : State) : Prop := s.mem.wf = true ∧ legalFlags s.fl ∧ legalCause s

/-! ## Safe runs -/

/-- A machine halted by a fault: Halted with a non-zero code (R102, R238). -/
def haltedByFault (s : State) : Prop := s.run = .halted ∧ ∃ c, s.cause = some c ∧ c.code.number ≠ 0

/-- The states a run of ticks from `s` passes through. -/
inductive Reaches (s : State) : State → Prop where
  | here : Reaches s s
  | tick {t u : State} : Reaches s t → step t = .next u → Reaches s u

/-- A safe run: no state it reaches is halted by a fault. -/
def SafeFrom (s : State) : Prop := ∀ t, Reaches s t → ¬ haltedByFault t

/-- The end of a run (R238): after exactly `n` ticks, the halting one included, the machine is Halted in
state `t`, and it was Running before each of them. -/
def EndsAfter (s : State) (n : Nat) (t : State) : Prop :=
  Sys2Proof.core.run n s = .next t ∧ t.run = .halted ∧
    ∀ k < n, ∃ u : State, Sys2Proof.core.run k s = .next u ∧ u.run = .running

/-! ## Comparisons of two states -/

/-- Every address reads as before, and the size is as before. -/
def sameMemory (s t : State) : Prop := t.mem.size = s.mem.size ∧ ∀ a : Nat, t.mem.read a = s.mem.read a

/-- Every address but `x` reads as before, and the size is as before. -/
def sameMemoryExcept (x : Nat) (s t : State) : Prop :=
  t.mem.size = s.mem.size ∧ ∀ a : Nat, a ≠ x → t.mem.read a = s.mem.read a

/-- R0 to R7 are as before. -/
def sameRegs (s t : State) : Prop := ∀ i : Fin 8, t.reg i = s.reg i

/-- R0 to R7 are as before, but for the register a byte names. -/
def sameRegsExcept (rA : Byte) (s t : State) : Prop := ∀ i : Fin 8, i.val ≠ rA.toNat → t.reg i = s.reg i

/-- Run state and halt cause are as before. -/
def sameStatus (s t : State) : Prop := t.run = s.run ∧ t.cause = s.cause

/-- The state a fault leaves (R201), written out: the state before the instruction, Halted, with the cause
`(code, pc, op, detail)`. -/
def faulted (s : State) (code : HaltCode) (op : Option Byte) (detail : Nat) : State :=
  { s with run := .halted, cause := some { code := code, pc := s.pc, op := op, detail := some detail } }

end Sys2Proof.Machine
end

