-- ==== Sys2Proof/Certificates/Slice0/Obligations.lean ====
section
/-!
DEFINITION. The statements for the provers. Each says which rules of the spec it formalises, or which
section of the spec it rests on. `faulted`, `sameMemory`, `sameRegs` and the invariant `CoreInv` are defined in
Sys2Proof/Safety.lean. A meaning is stated over every state and every operand byte: the legal operands by its
result, the illegal ones by the fault they raise.
-/

open Sys2Proof Sys2Proof.Machine

/-! ## Reset, memory and the load port -/

/-- R230: the reset state. -/
def Obligations.ResetStateOfANewMachine : Prop :=
  State.reset.mem.size = 256 ∧ (∀ a < 256, State.reset.mem.read a = some 0x00) ∧
  (∀ i : Fin 8, State.reset.reg i = 0) ∧ State.reset.pc = 0 ∧ State.reset.fl = 0x00 ∧
  State.reset.sp = 0xF4 ∧ State.reset.im = 0x00 ∧ State.reset.is = 0x00 ∧
  State.reset.run = .running ∧ State.reset.cause = none ∧ State.reset.out = []

/-- R51 and R52: reads and writes are checked against the size; a read gives the byte stored; a write changes
the one byte, for later reads of every address; a loader's write has the same contract. -/
def Obligations.MemoryReadAndWriteContracts : Prop :=
  ∀ (s : State) (a : Nat) (v : Byte),
    (s.mem.size ≤ a → memRead s a = .error ⟨.outOfBounds, a⟩ ∧ memWrite s a v = .error ⟨.outOfBounds, a⟩) ∧
    (a < s.mem.size →
      (∃ b, s.mem.read a = some b ∧ memRead s a = .ok b) ∧
      ∃ m : Memory, memWrite s a v = .ok { s with mem := m } ∧ s.load a v = .next { s with mem := m } ∧
        m.size = s.mem.size ∧ m.read a = some v ∧ (∀ b ≠ a, m.read b = s.mem.read b) ∧
        memRead { s with mem := m } a = .ok v ∧ ∀ b ≠ a, memRead { s with mem := m } b = memRead s b)

/-- The load port (10_state.md section 9, 70_reset_and_hazards.md section 2): a later load of an address
replaces an earlier one, whatever is loaded before, between and after the two; loads inside memory are accepted,
and a load outside it is refused. Rests on log entry 6. -/
def Obligations.LaterLoadReplacesEarlier : Prop :=
  (∀ (s t : State) (a : Nat) (b c : Byte) (before between after : List Host.Cell),
    (∀ x ∈ after, x.1 ≠ a) → s.loadAll (before ++ [(a, b)] ++ between ++ [(a, c)] ++ after) = .next t →
    t.mem.read a = some c ∧ t.mem.size = s.mem.size) ∧
  (∀ (s : State) (loads : List Host.Cell), (∀ x ∈ loads, x.1 < s.mem.size) → ∃ t, s.loadAll loads = .next t) ∧
  ∀ (s : State) (n : Nat) (v : Byte), s.mem.size ≤ n → s.load n v = .refused (.loadOutsideMemory n)

/-! ## System, load and store -/

/-- R100. -/
def Obligations.NopOnlyAdvances : Prop :=
  ∀ s : State, encode .nop = [0x00] ∧ exec .nop s = .next { s with pc := s.pc + 1 }

/-- R101: HLT halts with code 0 at its own address, and no later tick has an effect. -/
def Obligations.HltHaltsAtItsAddress : Prop :=
  ∀ s : State, encode .hlt = [0x01] ∧ HaltCode.hlt.number = 0 ∧
    let t := { s with run := .halted, cause := some ⟨.hlt, s.pc, some 0x01, none⟩ }
    exec .hlt s = .next t ∧ step t = .next t

/-- R110. -/
def Obligations.LdiLoadsItsImmediate : Prop :=
  ∀ (s : State) (rA imm8 : Byte),
    encode (.ldi rA imm8) = [0x82, rA, imm8] ∧
    (∀ hA : rA.toNat < 8,
      exec (.ldi rA imm8) s = .next { s with regs := s.regs.set rA.toNat imm8 hA, pc := s.pc + 3 }) ∧
    (7 < rA.toNat → exec (.ldi rA imm8) s = .next (faulted s .invalidRegister (some 0x82) rA.toNat))

/-- R111: the byte at the address in the second register, or OutOfBounds. -/
def Obligations.LdLoadsFromTheAddressInRb : Prop :=
  ∀ (s : State) (rA rB : Byte),
    encode (.ld rA rB) = [0x83, rA, rB] ∧
    (∀ (hA : rA.toNat < 8) (hB : rB.toNat < 8),
      (∀ v, s.mem.read (s.reg ⟨rB.toNat, hB⟩).toNat = some v →
        exec (.ld rA rB) s = .next { s with regs := s.regs.set rA.toNat v hA, pc := s.pc + 3 }) ∧
      (s.mem.size ≤ (s.reg ⟨rB.toNat, hB⟩).toNat →
        exec (.ld rA rB) s = .next (faulted s .outOfBounds (some 0x83) (s.reg ⟨rB.toNat, hB⟩).toNat))) ∧
    (7 < rA.toNat → exec (.ld rA rB) s = .next (faulted s .invalidRegister (some 0x83) rA.toNat)) ∧
    (rA.toNat < 8 → 7 < rB.toNat → exec (.ld rA rB) s = .next (faulted s .invalidRegister (some 0x83) rB.toNat))

/-- R112: the second register's value at the address in the first, or OutOfBounds and nothing written. -/
def Obligations.StStoresAtTheAddressInRa : Prop :=
  ∀ (s : State) (rA rB : Byte),
    encode (.st rA rB) = [0x84, rA, rB] ∧
    (∀ (hA : rA.toNat < 8) (hB : rB.toNat < 8),
      ((s.reg ⟨rA.toNat, hA⟩).toNat < s.mem.size →
        ∃ m : Memory, exec (.st rA rB) s = .next { s with mem := m, pc := s.pc + 3 } ∧ m.size = s.mem.size ∧
          m.read (s.reg ⟨rA.toNat, hA⟩).toNat = some (s.reg ⟨rB.toNat, hB⟩) ∧
          ∀ a ≠ (s.reg ⟨rA.toNat, hA⟩).toNat, m.read a = s.mem.read a) ∧
      (s.mem.size ≤ (s.reg ⟨rA.toNat, hA⟩).toNat →
        exec (.st rA rB) s = .next (faulted s .outOfBounds (some 0x84) (s.reg ⟨rA.toNat, hA⟩).toNat))) ∧
    (7 < rA.toNat → exec (.st rA rB) s = .next (faulted s .invalidRegister (some 0x84) rA.toNat)) ∧
    (rA.toNat < 8 → 7 < rB.toNat → exec (.st rA rB) s = .next (faulted s .invalidRegister (some 0x84) rB.toNat))

/-! ## Output -/

/-- R120: the numeral of the register, then one line feed. -/
def Obligations.PrnEmitsNumeralAndLineFeed : Prop :=
  ∀ (s : State) (rA : Byte),
    encode (.prn rA) = [0x47, rA] ∧
    (∀ hA : rA.toNat < 8, exec (.prn rA) s =
      .next { s with out := s.out ++ decimal (s.reg ⟨rA.toNat, hA⟩) ++ [0x0A], pc := s.pc + 2 }) ∧
    (7 < rA.toNat → exec (.prn rA) s = .next (faulted s .invalidRegister (some 0x47) rA.toNat))

/-- R121: the one code point equal to the register. -/
def Obligations.PraEmitsTheRegisterByte : Prop :=
  ∀ (s : State) (rA : Byte),
    encode (.pra rA) = [0x48, rA] ∧
    (∀ hA : rA.toNat < 8, exec (.pra rA) s =
      .next { s with out := s.out ++ [s.reg ⟨rA.toNat, hA⟩], pc := s.pc + 2 }) ∧
    (7 < rA.toNat → exec (.pra rA) s = .next (faulted s .invalidRegister (some 0x48) rA.toNat))

/-- R122: digits only, the value in base 10, no leading zero, 0 as one digit, and the terminator 0x0A. -/
def Obligations.DecimalNumeralDenotesTheByte : Prop :=
  (∀ v : Byte,
    (∀ c ∈ decimal v, 0x30 ≤ c.toNat ∧ c.toNat ≤ 0x39) ∧
    (decimal v).foldl (fun n c => 10 * n + (c.toNat - 0x30)) 0 = v.toNat ∧
    (v ≠ 0 → (decimal v).head? ≠ some 0x30)) ∧
  decimal 0 = [0x30] ∧ lineTerminator = 0x0A

/-! ## The ALU -/

/-- R131 to R134: the laws of the ALU as a pure function. -/
def Obligations.AluLawsOnUnsignedBytes : Prop :=
  ∀ a b : Byte,
    (∃ v, alu .add a b = .ok (.byte v) ∧ v.toNat = (a.toNat + b.toNat) % 256) ∧
    (∃ v, alu .sub a b = .ok (.byte v) ∧ (v.toNat : Int) = ((a.toNat : Int) - b.toNat) % 256) ∧
    (∃ v, alu .mul a b = .ok (.byte v) ∧ v.toNat = a.toNat * b.toNat % 256) ∧
    (∃ v, alu .inc a b = .ok (.byte v) ∧ v.toNat = (a.toNat + 1) % 256) ∧
    (∃ v, alu .dec a b = .ok (.byte v) ∧ (v.toNat : Int) = ((a.toNat : Int) - 1) % 256) ∧
    (b ≠ 0 → ∃ v, alu .div a b = .ok (.byte v) ∧ v.toNat = a.toNat / b.toNat ∧ v.toNat ≤ a.toNat ∧
      (b = 1 → v = a) ∧ (a = b → v = 1) ∧ (a.toNat < b.toNat → v = 0)) ∧
    alu .div a 0 = .error .divideByZero ∧
    (∃ e g l : Bool, alu .cmp a b = .ok (.flags e g l) ∧ (e = true ↔ a = b) ∧ (g = true ↔ a.toNat > b.toNat) ∧
      (l = true ↔ a.toNat < b.toNat) ∧ e.toNat + g.toNat + l.toNat = 1) ∧
    ∀ code, alu (.other code) a b = .error (.unknownOp code)

/-- R136, R137, R138: ADD, SUB and MUL write the exact result modulo 256 to the first register, nothing else. -/
def Obligations.AddSubMulResultsModulo256 : Prop :=
  ∀ (s : State) (rA rB : Byte),
    encode (.add rA rB) = [0xA0, rA, rB] ∧ encode (.sub rA rB) = [0xA1, rA, rB] ∧
    encode (.mul rA rB) = [0xA2, rA, rB] ∧
    (∀ (hA : rA.toNat < 8) (hB : rB.toNat < 8),
      let x := (s.reg ⟨rA.toNat, hA⟩).toNat
      let y := (s.reg ⟨rB.toNat, hB⟩).toNat
      exec (.add rA rB) s =
        .next { s with regs := s.regs.set rA.toNat (BitVec.ofNat 8 (x + y)) hA, pc := s.pc + 3 } ∧
      exec (.sub rA rB) s =
        .next { s with regs := s.regs.set rA.toNat (BitVec.ofInt 8 ((x : Int) - y)) hA, pc := s.pc + 3 } ∧
      exec (.mul rA rB) s =
        .next { s with regs := s.regs.set rA.toNat (BitVec.ofNat 8 (x * y)) hA, pc := s.pc + 3 }) ∧
    (7 < rA.toNat →
      exec (.add rA rB) s = .next (faulted s .invalidRegister (some 0xA0) rA.toNat) ∧
      exec (.sub rA rB) s = .next (faulted s .invalidRegister (some 0xA1) rA.toNat) ∧
      exec (.mul rA rB) s = .next (faulted s .invalidRegister (some 0xA2) rA.toNat)) ∧
    (rA.toNat < 8 → 7 < rB.toNat →
      exec (.add rA rB) s = .next (faulted s .invalidRegister (some 0xA0) rB.toNat) ∧
      exec (.sub rA rB) s = .next (faulted s .invalidRegister (some 0xA1) rB.toNat) ∧
      exec (.mul rA rB) s = .next (faulted s .invalidRegister (some 0xA2) rB.toNat))

/-- R139 and R205: DIV truncates, and a zero divisor halts with DivideByZero and the divisor's index. -/
def Obligations.DivTruncatesOrHaltsOnZero : Prop :=
  ∀ (s : State) (rA rB : Byte),
    encode (.div rA rB) = [0xA3, rA, rB] ∧
    (∀ (hA : rA.toNat < 8) (hB : rB.toNat < 8),
      (s.reg ⟨rB.toNat, hB⟩ ≠ 0 → exec (.div rA rB) s =
        .next { s with
          regs := s.regs.set rA.toNat
            (BitVec.ofNat 8 ((s.reg ⟨rA.toNat, hA⟩).toNat / (s.reg ⟨rB.toNat, hB⟩).toNat)) hA,
          pc := s.pc + 3 }) ∧
      (s.reg ⟨rB.toNat, hB⟩ = 0 →
        exec (.div rA rB) s = .next (faulted s .divideByZero (some 0xA3) rB.toNat))) ∧
    (7 < rA.toNat → exec (.div rA rB) s = .next (faulted s .invalidRegister (some 0xA3) rA.toNat)) ∧
    (rA.toNat < 8 → 7 < rB.toNat → exec (.div rA rB) s = .next (faulted s .invalidRegister (some 0xA3) rB.toNat))

/-- R140 and R141. -/
def Obligations.IncAndDecModulo256 : Prop :=
  ∀ (s : State) (rA : Byte),
    encode (.inc rA) = [0x65, rA] ∧ encode (.dec rA) = [0x66, rA] ∧
    (∀ hA : rA.toNat < 8,
      exec (.inc rA) s = .next { s with
        regs := s.regs.set rA.toNat (BitVec.ofNat 8 ((s.reg ⟨rA.toNat, hA⟩).toNat + 1)) hA, pc := s.pc + 2 } ∧
      exec (.dec rA) s = .next { s with
        regs := s.regs.set rA.toNat (BitVec.ofInt 8 (((s.reg ⟨rA.toNat, hA⟩).toNat : Int) - 1)) hA,
        pc := s.pc + 2 }) ∧
    (7 < rA.toNat →
      exec (.inc rA) s = .next (faulted s .invalidRegister (some 0x65) rA.toNat) ∧
      exec (.dec rA) s = .next (faulted s .invalidRegister (some 0x66) rA.toNat))

/-- R142 with the comparison of R133: bits 7:3 of FL kept, E, G and L from the unsigned comparison. The
sentence of R142 that the spec marks as derived (FL is then 0x01, 0x02 or 0x04) is `CmpLeavesExactlyOneFlag`. -/
def Obligations.CmpSetsFlagsUnsigned : Prop :=
  ∀ (s : State) (rA rB : Byte),
    encode (.cmp rA rB) = [0xA7, rA, rB] ∧
    (∀ (hA : rA.toNat < 8) (hB : rB.toNat < 8),
      let x := (s.reg ⟨rA.toNat, hA⟩).toNat
      let y := (s.reg ⟨rB.toNat, hB⟩).toNat
      exec (.cmp rA rB) s = .next { s with
        fl := (s.fl &&& 0xF8) ||| (if x = y then 0x01 else 0x00) ||| (if x > y then 0x02 else 0x00) |||
          (if x < y then 0x04 else 0x00),
        pc := s.pc + 3 }) ∧
    (7 < rA.toNat → exec (.cmp rA rB) s = .next (faulted s .invalidRegister (some 0xA7) rA.toNat)) ∧
    (rA.toNat < 8 → 7 < rB.toNat → exec (.cmp rA rB) s = .next (faulted s .invalidRegister (some 0xA7) rB.toNat))

/-- The spec's own inference in 43_alu.md (CMP) and 10_state.md section 4: with bits 7:3 of FL zero, a CMP of
two registers leaves exactly one flag set. -/
def Obligations.CmpLeavesExactlyOneFlag : Prop :=
  ∀ (s : State) (rA rB : Byte), s.fl &&& 0xF8 = 0 → rA.toNat < 8 → rB.toNat < 8 →
    ∃ t, exec (.cmp rA rB) s = .next t ∧ (t.fl = 0x01 ∨ t.fl = 0x02 ∨ t.fl = 0x04) ∧
      (rA = rB → t.fl = 0x01)

/-! ## Stack -/

/-- R160: PUSH decrements SP and writes there, or halts with SP unchanged. -/
def Obligations.PushDecrementsSpAndStores : Prop :=
  ∀ (s : State) (rA : Byte),
    encode (.push rA) = [0x45, rA] ∧
    (∀ hA : rA.toNat < 8,
      ((s.sp - 1).toNat < s.mem.size →
        ∃ m : Memory, exec (.push rA) s = .next { s with mem := m, sp := s.sp - 1, pc := s.pc + 2 } ∧
          m.size = s.mem.size ∧ m.read (s.sp - 1).toNat = some (s.reg ⟨rA.toNat, hA⟩) ∧
          ∀ a ≠ (s.sp - 1).toNat, m.read a = s.mem.read a) ∧
      (s.mem.size ≤ (s.sp - 1).toNat →
        exec (.push rA) s = .next (faulted s .outOfBounds (some 0x45) (s.sp - 1).toNat))) ∧
    (7 < rA.toNat → exec (.push rA) s = .next (faulted s .invalidRegister (some 0x45) rA.toNat))

/-- R161: POP reads at SP and increments SP, or halts. -/
def Obligations.PopReadsAtSpAndIncrements : Prop :=
  ∀ (s : State) (rA : Byte),
    encode (.pop rA) = [0x46, rA] ∧
    (∀ hA : rA.toNat < 8,
      (∀ v, s.mem.read s.sp.toNat = some v → exec (.pop rA) s =
        .next { s with regs := s.regs.set rA.toNat v hA, sp := s.sp + 1, pc := s.pc + 2 }) ∧
      (s.mem.size ≤ s.sp.toNat → exec (.pop rA) s = .next (faulted s .outOfBounds (some 0x46) s.sp.toNat))) ∧
    (7 < rA.toNat → exec (.pop rA) s = .next (faulted s .invalidRegister (some 0x46) rA.toNat))

/-- The spec's own inference in 44_stack.md (PUSH then POP restores a value), with what else the pair leaves
as it was. -/
def Obligations.PushThenPopRestoresValueAndSp : Prop :=
  ∀ (s : State) (rA rB : Byte) (hA : rA.toNat < 8) (hB : rB.toNat < 8), (s.sp - 1).toNat < s.mem.size →
    ∃ t u, exec (.push rA) s = .next t ∧ exec (.pop rB) t = .next u ∧
      u.reg ⟨rB.toNat, hB⟩ = s.reg ⟨rA.toNat, hA⟩ ∧ u.sp = s.sp ∧
      u.mem.read (s.sp - 1).toNat = some (s.reg ⟨rA.toNat, hA⟩) ∧
      sameRegsExcept rB s u ∧ sameMemoryExcept (s.sp - 1).toNat s u ∧ u.pc = s.pc + 4

/-! ## Control transfer -/

/-- R170: CALL pushes PC + 2 and goes to the register's value. -/
def Obligations.CallPushesReturnAndJumps : Prop :=
  ∀ (s : State) (rA : Byte),
    encode (.call rA) = [0x50, rA] ∧
    (∀ hA : rA.toNat < 8,
      ((s.sp - 1).toNat < s.mem.size →
        ∃ m : Memory, exec (.call rA) s =
            .next { s with mem := m, sp := s.sp - 1, pc := s.reg ⟨rA.toNat, hA⟩ } ∧
          m.size = s.mem.size ∧ m.read (s.sp - 1).toNat = some (s.pc + 2) ∧
          ∀ a ≠ (s.sp - 1).toNat, m.read a = s.mem.read a) ∧
      (s.mem.size ≤ (s.sp - 1).toNat →
        exec (.call rA) s = .next (faulted s .outOfBounds (some 0x50) (s.sp - 1).toNat))) ∧
    (7 < rA.toNat → exec (.call rA) s = .next (faulted s .invalidRegister (some 0x50) rA.toNat))

/-- R171: RET pops PC, or halts. -/
def Obligations.RetPopsThePc : Prop :=
  ∀ s : State,
    encode .ret = [0x11] ∧
    (∀ v, s.mem.read s.sp.toNat = some v → exec .ret s = .next { s with pc := v, sp := s.sp + 1 }) ∧
    (s.mem.size ≤ s.sp.toNat → exec .ret s = .next (faulted s .outOfBounds (some 0x11) s.sp.toNat))

/-- R172. -/
def Obligations.JmpGoesToTheRegister : Prop :=
  ∀ (s : State) (rA : Byte),
    encode (.jmp rA) = [0x54, rA] ∧
    (∀ hA : rA.toNat < 8, exec (.jmp rA) s = .next { s with pc := s.reg ⟨rA.toNat, hA⟩ }) ∧
    (7 < rA.toNat → exec (.jmp rA) s = .next (faulted s .invalidRegister (some 0x54) rA.toNat))

/-- R173: JEQ is taken exactly when bit 0 of FL is 1; its operand is checked either way. -/
def Obligations.JeqJumpsOnEqual : Prop :=
  ∀ (s : State) (rA : Byte),
    encode (.jeq rA) = [0x55, rA] ∧
    (∀ hA : rA.toNat < 8,
      (s.fl &&& 1 = 1 → exec (.jeq rA) s = .next { s with pc := s.reg ⟨rA.toNat, hA⟩ }) ∧
      (s.fl &&& 1 = 0 → exec (.jeq rA) s = .next { s with pc := s.pc + 2 })) ∧
    (7 < rA.toNat → exec (.jeq rA) s = .next (faulted s .invalidRegister (some 0x55) rA.toNat))

/-- R174: JNE is taken exactly when bit 0 of FL is 0; its operand is checked either way. -/
def Obligations.JneJumpsOnNotEqual : Prop :=
  ∀ (s : State) (rA : Byte),
    encode (.jne rA) = [0x56, rA] ∧
    (∀ hA : rA.toNat < 8,
      (s.fl &&& 1 = 0 → exec (.jne rA) s = .next { s with pc := s.reg ⟨rA.toNat, hA⟩ }) ∧
      (s.fl &&& 1 = 1 → exec (.jne rA) s = .next { s with pc := s.pc + 2 })) ∧
    (7 < rA.toNat → exec (.jne rA) s = .next (faulted s .invalidRegister (some 0x56) rA.toNat))

/-- The spec's own inference in 45_control.md (the CALL/RET law): a RET in any state whose SP, and whose byte
there, are as the CALL left them returns to the address after the CALL with SP as before it. -/
def Obligations.RetReturnsAfterCall : Prop :=
  ∀ (s : State) (rA : Byte) (hA : rA.toNat < 8), (s.sp - 1).toNat < s.mem.size →
    ∃ t, exec (.call rA) s = .next t ∧ t.pc = s.reg ⟨rA.toNat, hA⟩ ∧
      ∀ w : State, w.sp = t.sp → w.mem.read w.sp.toNat = t.mem.read t.sp.toNat →
        ∃ u, exec .ret w = .next u ∧ u.pc = s.pc + 2 ∧ u.sp = s.sp

/-! ## Interrupt instructions -/

/-- R190 and R207: INT sets one bit of IS, or halts on a line of 8 or more. -/
def Obligations.IntSetsOneStatusBit : Prop :=
  ∀ (s : State) (rA : Byte),
    encode (.int rA) = [0x52, rA] ∧
    (∀ hA : rA.toNat < 8,
      ((s.reg ⟨rA.toNat, hA⟩).toNat < 8 →
        exec (.int rA) s = .next { s with
          is := s.is ||| BitVec.ofNat 8 (2 ^ (s.reg ⟨rA.toNat, hA⟩).toNat), pc := s.pc + 2 }) ∧
      (7 < (s.reg ⟨rA.toNat, hA⟩).toNat → exec (.int rA) s =
        .next (faulted s .invalidInterruptLine (some 0x52) (s.reg ⟨rA.toNat, hA⟩).toNat))) ∧
    (7 < rA.toNat → exec (.int rA) s = .next (faulted s .invalidRegister (some 0x52) rA.toNat))

/-- R191: IRET restores R7 to R0 from the eight bytes at SP on, PC from the ninth, and raises SP by 9; the
first of the nine that is outside memory is the OutOfBounds it halts with. -/
def Obligations.IretRestoresNineBytes : Prop :=
  ∀ s : State,
    encode .iret = [0x13] ∧
    (∀ b0 b1 b2 b3 b4 b5 b6 b7 b8 : Byte,
      s.mem.read s.sp.toNat = some b0 → s.mem.read (s.sp + 1).toNat = some b1 →
      s.mem.read (s.sp + 2).toNat = some b2 → s.mem.read (s.sp + 3).toNat = some b3 →
      s.mem.read (s.sp + 4).toNat = some b4 → s.mem.read (s.sp + 5).toNat = some b5 →
      s.mem.read (s.sp + 6).toNat = some b6 → s.mem.read (s.sp + 7).toNat = some b7 →
      s.mem.read (s.sp + 8).toNat = some b8 →
      exec .iret s = .next { s with regs := #v[b7, b6, b5, b4, b3, b2, b1, b0], pc := b8, sp := s.sp + 9 }) ∧
    (∀ k < 9, (∀ j < k, (s.sp + BitVec.ofNat 8 j).toNat < s.mem.size) →
      s.mem.size ≤ (s.sp + BitVec.ofNat 8 k).toNat →
      exec .iret s = .next (faulted s .outOfBounds (some 0x13) (s.sp + BitVec.ofNat 8 k).toNat))

/-- The spec's own inference in 46_interrupt.md (the frame IRET expects): a frame pushed as the resume address
and then R0 to R7 is what IRET restores, with SP back where it was. -/
def Obligations.IretUndoesAPushedFrame : Prop :=
  ∀ (s t : State) (resume : Byte) (x : Vector Byte 8),
    ([resume] ++ x.toList).foldlM push s = .ok t →
    exec .iret t = .next { t with regs := x, pc := resume, sp := s.sp }

/-! ## The tick -/

/-- The tick of a Running machine whose bytes at PC decode to an instruction is that instruction's execution;
no byte beyond the instruction is needed (30_encoding.md section 3). -/
def Obligations.StepRunsTheDecodedInstruction : Prop :=
  ∀ (s : State) (bs : List Byte) (i : Instr) (rest : List Byte), s.run = .running →
    (∀ k < bs.length, s.mem.read (s.pc.toNat + k) = bs[k]?) → decode bs = .ok (i, rest) →
    step s = exec i s

/-- R80: the opcode fetch and each operand fetch the instruction has are checked, at addresses not reduced
modulo 256, and an instruction that is whole in memory is executed. -/
def Obligations.FetchOutsideMemoryHalts : Prop :=
  ∀ s : State, s.run = .running →
    (s.mem.size ≤ s.pc.toNat → step s = .next (faulted s .outOfBounds none s.pc.toNat)) ∧
    ∀ m : Mnemonic, s.mem.read s.pc.toNat = some m.opcode →
      (1 < m.length → s.mem.size ≤ s.pc.toNat + 1 →
        step s = .next (faulted s .outOfBounds (some m.opcode) (s.pc.toNat + 1))) ∧
      (2 < m.length → s.pc.toNat + 1 < s.mem.size → s.mem.size ≤ s.pc.toNat + 2 →
        step s = .next (faulted s .outOfBounds (some m.opcode) (s.pc.toNat + 2))) ∧
      (s.pc.toNat + m.length ≤ s.mem.size → ∃ i : Instr, i.mnemonic = m ∧ step s = exec i s)

/-- R88 and R204: exactly the listed bytes are illegal, and each halts with UnknownInstruction whatever bytes
follow it. -/
def Obligations.IllegalOpcodesHalt : Prop :=
  ∀ (s : State) (op : Byte), s.run = .running → s.mem.read s.pc.toNat = some op →
    let n := op.toNat
    let illegal := (0x02 ≤ n ∧ n ≤ 0x10) ∨ n = 0x12 ∨ (0x14 ≤ n ∧ n ≤ 0x3F) ∨ (0x40 ≤ n ∧ n ≤ 0x44) ∨
      (0x49 ≤ n ∧ n ≤ 0x4F) ∨ n = 0x51 ∨ n = 0x53 ∨ (0x57 ≤ n ∧ n ≤ 0x64) ∨ (0x67 ≤ n ∧ n ≤ 0x7F) ∨
      n = 0x80 ∨ n = 0x81 ∨ (0x85 ≤ n ∧ n ≤ 0x9F) ∨ (0xA4 ≤ n ∧ n ≤ 0xA6) ∨ (0xA8 ≤ n ∧ n ≤ 0xBF) ∨ 0xC0 ≤ n
    (illegal → step s = .next (faulted s .unknownInstruction (some op) n)) ∧
    (¬ illegal → ∃ m : Mnemonic, m.opcode = op)

/-- A tick of a Halted machine changes nothing (10_state.md section 7; log entry 4), so every state a run
reaches from a Halted one is that one. -/
def Obligations.HaltedIsTerminal : Prop :=
  ∀ s t : State, s.run = .halted → Reaches s t → t = s ∧ step s = .next s

/-- Every tick answers a next state: no error is refused or left without one (60_exceptions.md section 2). -/
def Obligations.EveryTickAnswersANextState : Prop := ∀ s : State, ∃ t, step s = .next t

/-- R84: an instruction that neither halts nor redirects advances PC by its length. -/
def Obligations.PcAdvancesByTheLength : Prop :=
  ∀ (i : Instr) (s t : State), s.run = .running → exec i s = .next t → t.run = .running →
    (∀ rA, i ≠ .call rA) → (∀ rA, i ≠ .jmp rA) → i ≠ .ret → i ≠ .iret →
    (∀ rA, i = .jeq rA → s.fl &&& 1 = 0) → (∀ rA, i = .jne rA → s.fl &&& 1 = 1) →
    t.pc = s.pc + BitVec.ofNat 8 (encode i).length

/-! ## Faults -/

/-- R83 and R203: whatever the instruction and the state, the first register operand of 8 to 255 is the fault,
and legal operands never raise it. -/
def Obligations.IllegalRegisterOperandHalts : Prop :=
  ∀ (i : Instr) (s : State),
    (∀ a, i.registerOperands.head? = some a → 7 < a.toNat →
      exec i s = .next (faulted s .invalidRegister (some i.mnemonic.opcode) a.toNat)) ∧
    (∀ a b, i.registerOperands = [a, b] → a.toNat < 8 → 7 < b.toNat →
      exec i s = .next (faulted s .invalidRegister (some i.mnemonic.opcode) b.toNat)) ∧
    (i.wellFormed = true → ∀ t c, s.run = .running → exec i s = .next t → t.run = .halted →
      t.cause = some c → c.code ≠ .invalidRegister)

/-- R201: a tick that halts changes nothing but the run state and the cause; the cause holds the instruction's
address and its opcode (none when the opcode fetch faulted); no later tick changes anything. -/
def Obligations.HaltingTickChangesNothingElse : Prop :=
  ∀ s t : State, s.run = .running → step s = .next t → t.run = .halted →
    ∃ c : HaltCause, t = { s with run := .halted, cause := some c } ∧ c.pc = s.pc ∧
      c.op = s.mem.read s.pc.toNat ∧ step t = .next t

/-- R206: an ALU operation outside the seven is UnknownALUOp, and no tick of any instruction ends with it. -/
def Obligations.UnknownAluOpIsNeverRaised : Prop :=
  (∀ (code : Nat) (a b : Byte), alu (.other code) a b = .error (.unknownOp code)) ∧
  ∀ (s t : State) (c : HaltCause), s.run = .running → step s = .next t → t.run = .halted →
    t.cause = some c → c.code ≠ .unknownAluOp

/-- The spec's own inference in 60_exceptions.md section 1: with 256 bytes of memory, only an operand fetch
past 0xFF is out of bounds, at 0x100 or 0x101. -/
def Obligations.OnlyOperandFetchOutOfBoundsAt256 : Prop :=
  ∀ (s t : State) (c : HaltCause), s.run = .running → s.mem.size = 256 → step s = .next t →
    t.run = .halted → t.cause = some c → c.code = .outOfBounds →
    (c.detail = some 0x100 ∨ c.detail = some 0x101) ∧ 0xFE ≤ s.pc.toNat ∧ c.op ≠ none

/-! ## Frames -/

/-- The instructions that write one general register and store nothing (41_load_store.md, 43_alu.md): every
other register, every byte of memory, FL, SP, IM, IS and the output are unchanged, and the status too unless
the instruction halts. -/
def Obligations.RegisterWritersFrame : Prop :=
  ∀ (s t : State) (rA rB : Byte) (i : Instr),
    i ∈ [.ldi rA rB, .ld rA rB, .add rA rB, .sub rA rB, .mul rA rB, .div rA rB, .inc rA, .dec rA] →
    exec i s = .next t →
    sameRegsExcept rA s t ∧ sameMemory s t ∧ t.fl = s.fl ∧ t.sp = s.sp ∧ t.im = s.im ∧ t.is = s.is ∧
    t.out = s.out ∧ (t.run ≠ .halted → sameStatus s t)

/-- The instructions that write no general register and store nothing (40_system.md, 42_output.md, 45_control.md,
46_interrupt.md, CMP): registers, memory, SP and IM are unchanged, FL but for CMP, IS but for INT, the output
but for PRN and PRA, and the status unless the instruction halts. -/
def Obligations.NoRegisterNoStoreFrame : Prop :=
  ∀ (s t : State) (rA rB : Byte) (i : Instr),
    i ∈ [.nop, .hlt, .prn rA, .pra rA, .cmp rA rB, .jmp rA, .jeq rA, .jne rA, .int rA] →
    exec i s = .next t →
    sameRegs s t ∧ sameMemory s t ∧ t.sp = s.sp ∧ t.im = s.im ∧
    (i ≠ .cmp rA rB → t.fl = s.fl) ∧ (i ≠ .int rA → t.is = s.is) ∧
    (i ≠ .prn rA → i ≠ .pra rA → t.out = s.out) ∧
    (t.run ≠ .halted → sameStatus s t)

/-- ST (41_load_store.md): every register and special register is unchanged, and every byte of memory but the
one at the address in the first register; with an illegal operand nothing is stored. -/
def Obligations.StoreFrame : Prop :=
  ∀ (s t : State) (rA rB : Byte), exec (.st rA rB) s = .next t →
    sameRegs s t ∧ t.fl = s.fl ∧ t.sp = s.sp ∧ t.im = s.im ∧ t.is = s.is ∧ t.out = s.out ∧
    (t.run ≠ .halted → sameStatus s t) ∧
    (∀ d : Fin 8, regOperand rA = .ok d → sameMemoryExcept (s.address d) s t) ∧
    (7 < rA.toNat ∨ 7 < rB.toNat → sameMemory s t)

/-- The stack instructions (44_stack.md, 45_control.md, 46_interrupt.md): PUSH and CALL write no general register
and store one byte, at SP minus 1; POP writes its register, RET none, IRET all eight, and they store nothing; SP
moves by one, or nine for IRET, or not at all when the instruction halts. -/
def Obligations.StackInstructionsFrame : Prop :=
  ∀ (s t : State) (rA : Byte),
    (∀ i ∈ [Instr.push rA, Instr.call rA], exec i s = .next t →
      sameRegs s t ∧ sameMemoryExcept (s.sp - 1).toNat s t ∧ (t.sp = s.sp - 1 ∨ t.run = .halted ∧ t.sp = s.sp)) ∧
    (exec (.pop rA) s = .next t →
      sameRegsExcept rA s t ∧ sameMemory s t ∧ (t.sp = s.sp + 1 ∨ t.run = .halted ∧ t.sp = s.sp)) ∧
    (exec .ret s = .next t →
      sameRegs s t ∧ sameMemory s t ∧ (t.sp = s.sp + 1 ∨ t.run = .halted ∧ t.sp = s.sp)) ∧
    (exec .iret s = .next t →
      sameMemory s t ∧ (t.sp = s.sp + 9 ∨ t.run = .halted ∧ t.sp = s.sp ∧ sameRegs s t)) ∧
    (∀ i ∈ [Instr.push rA, Instr.call rA, Instr.pop rA, Instr.ret, Instr.iret], exec i s = .next t →
      t.fl = s.fl ∧ t.im = s.im ∧ t.is = s.is ∧ t.out = s.out ∧ (t.run ≠ .halted → sameStatus s t))

/-! ## Whole-machine rules -/

/-- R36: no tick reads or writes IM: a tick of the same state with another IM is the same tick with that IM. -/
def Obligations.ImIsNeitherReadNorWritten : Prop :=
  ∀ (s : State) (v : Byte),
    step { s with im := v } = mapNext (fun t => { t with im := v }) (step s) ∧
    ∀ t, step s = .next t → t.im = s.im

/-- R38: IS is written only by INT, which sets one bit and clears none, and no tick depends on it. -/
def Obligations.IsIsWrittenOnlyByIntAndReadByNothing : Prop :=
  (∀ (i : Instr) (s t : State), exec i s = .next t →
    ((∀ rA, i ≠ .int rA) → t.is = s.is) ∧ t.is &&& s.is = s.is ∧
    (t.is = s.is ∨ ∃ n < 8, t.is = s.is ||| BitVec.ofNat 8 (2 ^ n))) ∧
  ∀ (s t : State) (v : Byte), step s = .next t → ∃ w, step { s with is := v } = .next { t with is := w }

/-- R32: only JEQ and JNE depend on FL, and only on bit 0; R30's writer: only CMP changes FL (the clause of R30
on bits 7:3, the spec's own inference, is in `StepKeepsInv`). -/
def Obligations.OnlyBitZeroOfFlIsRead : Prop :=
  (∀ (s t : State) (v : Byte), v &&& 1 = s.fl &&& 1 → step s = .next t →
    ∃ w, step { s with fl := v } = .next { t with fl := w }) ∧
  (∀ (i : Instr) (s t : State) (v : Byte), (∀ rA, i ≠ .jeq rA) → (∀ rA, i ≠ .jne rA) → exec i s = .next t →
    ∃ w, exec i { s with fl := v } = .next { t with fl := w }) ∧
  ∀ (i : Instr) (s t : State), (∀ rA rB, i ≠ .cmp rA rB) → exec i s = .next t → t.fl = s.fl

/-- 10_state.md section 5: only PUSH, POP, CALL, RET and IRET read or write SP. -/
def Obligations.OnlyStackInstructionsUseSp : Prop :=
  ∀ (i : Instr) (s : State) (v : Byte),
    (∀ rA, i ≠ .push rA) → (∀ rA, i ≠ .pop rA) → (∀ rA, i ≠ .call rA) → i ≠ .ret → i ≠ .iret →
    exec i { s with sp := v } = mapNext (fun t => { t with sp := v }) (exec i s) ∧
    ∀ t, exec i s = .next t → t.sp = s.sp

/-- R43: the stream starts empty, only PRN and PRA append to it, and nothing is removed. -/
def Obligations.OutputOnlyGrowsByPrnAndPra : Prop :=
  State.reset.out = [] ∧
  (∀ (i : Instr) (s t : State), exec i s = .next t →
    (∃ cs, t.out = s.out ++ cs) ∧ ((∀ rA, i ≠ .prn rA) → (∀ rA, i ≠ .pra rA) → t.out = s.out)) ∧
  ∀ s t : State, Reaches s t → ∃ cs, t.out = s.out ++ cs

/-- 20_memory.md section 1: the size of memory is fixed for the lifetime of the machine. -/
def Obligations.MemorySizeIsFixed : Prop := ∀ s t : State, Reaches s t → t.mem.size = s.mem.size

/-- The spec's own inference in 20_memory.md section 5 (R66) and 70_reset_and_hazards.md section 3 (R236), for an
ST and the tick after it: when the byte stored is byte `j` of an instruction at the next address (its opcode or an
operand byte), and its other bytes stand in memory before the ST, the next tick executes that instruction. -/
def Obligations.StoreIsSeenByTheNextFetch : Prop :=
  ∀ (s t : State) (rA rB : Byte) (hA : rA.toNat < 8) (hB : rB.toNat < 8) (i : Instr) (j : Nat),
    s.run = .running → exec (.st rA rB) s = .next t → t.run = .running →
    (s.reg ⟨rA.toNat, hA⟩).toNat = (s.pc + 3).toNat + j → (encode i)[j]? = some (s.reg ⟨rB.toNat, hB⟩) →
    (∀ k < (encode i).length, k ≠ j → s.mem.read ((s.pc + 3).toNat + k) = (encode i)[k]?) →
    step t = exec i t

/-! ## The invariant -/

/-- The reset state meets the invariant. -/
def Obligations.ResetMeetsInv : Prop := CoreInv State.reset

/-- Every tick keeps the invariant: memory in canonical form and of an admitted size, FL with at most one flag
and nothing in bits 7:3 (the spec's own inference in 10_state.md section 4), and a halt cause that agrees with the
run state, the PC and the fault table. -/
def Obligations.StepKeepsInv : Prop := ∀ s t : State, CoreInv s → step s = .next t → CoreInv t

/-! ## Encoding -/

/-- Decoding an encoded instruction, whatever bytes follow it, gives the instruction with every operand at every
value, and those bytes (30_encoding.md sections 1 and 2). -/
def Obligations.DecodeOfEncodeIsTheInstruction : Prop :=
  ∀ (i : Instr) (rest : List Byte), decode (encode i ++ rest) = .ok (i, rest)

/-- Every instruction has one encoding: bytes that decode to it begin with its encoding (30_encoding.md section
2). -/
def Obligations.DecodedBytesAreTheEncoding : Prop :=
  ∀ (bs : List Byte) (i : Instr) (rest : List Byte), decode bs = .ok (i, rest) → bs = encode i ++ rest

/-- A few words written out from the opcode map (30_encoding.md section 2), one of each format and family. -/
def Obligations.WrittenOutWordsDecode : Prop :=
  decode [0b00010011] = .ok (.iret, []) ∧
  decode [0b01000101, 0b00000101] = .ok (.push 5, []) ∧
  decode [0b01010101, 0b00000010] = .ok (.jeq 2, []) ∧
  decode [0b01001000, 0b00000001] = .ok (.pra 1, []) ∧
  decode [0b10000010, 0b00000011, 0b11111111] = .ok (.ldi 3 0xFF, []) ∧
  decode [0b10000100, 0b00000001, 0b00000110] = .ok (.st 1 6, []) ∧
  decode [0b10100111, 0b00000100, 0b00000111] = .ok (.cmp 4 7, [])

/-- The numeric halt codes of the table in 60_exceptions.md section 1 (R200's table), all different. -/
def Obligations.HaltCodeNumbers : Prop :=
  [HaltCode.hlt, .outOfBounds, .invalidRegister, .divideByZero, .unknownInstruction, .unknownAluOp,
    .invalidInterruptLine].map HaltCode.number = [0, 1, 2, 3, 4, 5, 6] ∧
  ∀ c : HaltCode, c.number = 0 ↔ c = .hlt

/-- The assembler syntax (30_encoding.md section 6): the line that spells a well-formed instruction stands for
it, with every register and every immediate; only R0 to R7 are register names; and a hexadecimal and a binary
numeral stand for their value. The spelling of the line is `disassemble`'s, one of those the syntax admits (log
entry 12). -/
def Obligations.AssemblyLineDenotesTheInstruction : Prop :=
  (∀ i : Instr, i.wellFormed = true → assemble (disassemble i) = some i) ∧
  ∀ v : Byte,
    registerOfText ('R' :: decimalText v) = (if v.toNat < 8 then some v else none) ∧
    immediateOfText (['0', 'x'] ++ [v.toNat / 16, v.toNat % 16].map Nat.digitChar) = some v ∧
    immediateOfText (['0', 'b'] ++ [7, 6, 5, 4, 3, 2, 1, 0].map fun k => if v.toNat.testBit k then '1' else '0') =
      some v

/-- The end of a run (70_reset_and_hazards.md section 5): a run ends at most once, in one state, after one
number of ticks, and every later tick answers that state. -/
def Obligations.ARunHasOneEnd : Prop :=
  ∀ (s t u : State) (n m : Nat), EndsAfter s n t → EndsAfter s m u →
    n = m ∧ t = u ∧ ∀ k, Sys2Proof.core.run (n + k) s = .next t
end

