-- ==== Sys2Proof/Laws/State.lean ====
section
/-!
SUPPORT. One lemma per field per update of the state, so that no later proof unfolds a record update.
-/

namespace Sys2Proof.Machine

section Updates

variable (s : State)

/-! ### setReg -/

@[simp] theorem State.setReg_mem (i : Fin 8) (v : Byte) : (s.setReg i v).mem = s.mem := rfl
@[simp] theorem State.setReg_regs (i : Fin 8) (v : Byte) : (s.setReg i v).regs = s.regs.set i v := rfl
@[simp] theorem State.setReg_pc (i : Fin 8) (v : Byte) : (s.setReg i v).pc = s.pc := rfl
@[simp] theorem State.setReg_fl (i : Fin 8) (v : Byte) : (s.setReg i v).fl = s.fl := rfl
@[simp] theorem State.setReg_sp (i : Fin 8) (v : Byte) : (s.setReg i v).sp = s.sp := rfl
@[simp] theorem State.setReg_im (i : Fin 8) (v : Byte) : (s.setReg i v).im = s.im := rfl
@[simp] theorem State.setReg_is (i : Fin 8) (v : Byte) : (s.setReg i v).is = s.is := rfl
@[simp] theorem State.setReg_run (i : Fin 8) (v : Byte) : (s.setReg i v).run = s.run := rfl
@[simp] theorem State.setReg_cause (i : Fin 8) (v : Byte) : (s.setReg i v).cause = s.cause := rfl
@[simp] theorem State.setReg_out (i : Fin 8) (v : Byte) : (s.setReg i v).out = s.out := rfl

/-! ### setPc -/

@[simp] theorem State.setPc_mem (v : Byte) : (s.setPc v).mem = s.mem := rfl
@[simp] theorem State.setPc_regs (v : Byte) : (s.setPc v).regs = s.regs := rfl
@[simp] theorem State.setPc_pc (v : Byte) : (s.setPc v).pc = v := rfl
@[simp] theorem State.setPc_fl (v : Byte) : (s.setPc v).fl = s.fl := rfl
@[simp] theorem State.setPc_sp (v : Byte) : (s.setPc v).sp = s.sp := rfl
@[simp] theorem State.setPc_im (v : Byte) : (s.setPc v).im = s.im := rfl
@[simp] theorem State.setPc_is (v : Byte) : (s.setPc v).is = s.is := rfl
@[simp] theorem State.setPc_run (v : Byte) : (s.setPc v).run = s.run := rfl
@[simp] theorem State.setPc_cause (v : Byte) : (s.setPc v).cause = s.cause := rfl
@[simp] theorem State.setPc_out (v : Byte) : (s.setPc v).out = s.out := rfl
@[simp] theorem State.setPc_reg (v : Byte) (j : Fin 8) : (s.setPc v).reg j = s.reg j := rfl

/-! ### setSp -/

@[simp] theorem State.setSp_mem (v : Byte) : (s.setSp v).mem = s.mem := rfl
@[simp] theorem State.setSp_regs (v : Byte) : (s.setSp v).regs = s.regs := rfl
@[simp] theorem State.setSp_pc (v : Byte) : (s.setSp v).pc = s.pc := rfl
@[simp] theorem State.setSp_fl (v : Byte) : (s.setSp v).fl = s.fl := rfl
@[simp] theorem State.setSp_sp (v : Byte) : (s.setSp v).sp = v := rfl
@[simp] theorem State.setSp_im (v : Byte) : (s.setSp v).im = s.im := rfl
@[simp] theorem State.setSp_is (v : Byte) : (s.setSp v).is = s.is := rfl
@[simp] theorem State.setSp_run (v : Byte) : (s.setSp v).run = s.run := rfl
@[simp] theorem State.setSp_cause (v : Byte) : (s.setSp v).cause = s.cause := rfl
@[simp] theorem State.setSp_out (v : Byte) : (s.setSp v).out = s.out := rfl
@[simp] theorem State.setSp_reg (v : Byte) (j : Fin 8) : (s.setSp v).reg j = s.reg j := rfl

/-! ### setFl -/

@[simp] theorem State.setFl_mem (v : Byte) : (s.setFl v).mem = s.mem := rfl
@[simp] theorem State.setFl_regs (v : Byte) : (s.setFl v).regs = s.regs := rfl
@[simp] theorem State.setFl_pc (v : Byte) : (s.setFl v).pc = s.pc := rfl
@[simp] theorem State.setFl_fl (v : Byte) : (s.setFl v).fl = v := rfl
@[simp] theorem State.setFl_sp (v : Byte) : (s.setFl v).sp = s.sp := rfl
@[simp] theorem State.setFl_im (v : Byte) : (s.setFl v).im = s.im := rfl
@[simp] theorem State.setFl_is (v : Byte) : (s.setFl v).is = s.is := rfl
@[simp] theorem State.setFl_run (v : Byte) : (s.setFl v).run = s.run := rfl
@[simp] theorem State.setFl_cause (v : Byte) : (s.setFl v).cause = s.cause := rfl
@[simp] theorem State.setFl_out (v : Byte) : (s.setFl v).out = s.out := rfl
@[simp] theorem State.setFl_reg (v : Byte) (j : Fin 8) : (s.setFl v).reg j = s.reg j := rfl

/-! ### setIs -/

@[simp] theorem State.setIs_mem (v : Byte) : (s.setIs v).mem = s.mem := rfl
@[simp] theorem State.setIs_regs (v : Byte) : (s.setIs v).regs = s.regs := rfl
@[simp] theorem State.setIs_pc (v : Byte) : (s.setIs v).pc = s.pc := rfl
@[simp] theorem State.setIs_fl (v : Byte) : (s.setIs v).fl = s.fl := rfl
@[simp] theorem State.setIs_sp (v : Byte) : (s.setIs v).sp = s.sp := rfl
@[simp] theorem State.setIs_im (v : Byte) : (s.setIs v).im = s.im := rfl
@[simp] theorem State.setIs_is (v : Byte) : (s.setIs v).is = v := rfl
@[simp] theorem State.setIs_run (v : Byte) : (s.setIs v).run = s.run := rfl
@[simp] theorem State.setIs_cause (v : Byte) : (s.setIs v).cause = s.cause := rfl
@[simp] theorem State.setIs_out (v : Byte) : (s.setIs v).out = s.out := rfl
@[simp] theorem State.setIs_reg (v : Byte) (j : Fin 8) : (s.setIs v).reg j = s.reg j := rfl

/-! ### setMem -/

@[simp] theorem State.setMem_mem (m : Memory) : (s.setMem m).mem = m := rfl
@[simp] theorem State.setMem_regs (m : Memory) : (s.setMem m).regs = s.regs := rfl
@[simp] theorem State.setMem_pc (m : Memory) : (s.setMem m).pc = s.pc := rfl
@[simp] theorem State.setMem_fl (m : Memory) : (s.setMem m).fl = s.fl := rfl
@[simp] theorem State.setMem_sp (m : Memory) : (s.setMem m).sp = s.sp := rfl
@[simp] theorem State.setMem_im (m : Memory) : (s.setMem m).im = s.im := rfl
@[simp] theorem State.setMem_is (m : Memory) : (s.setMem m).is = s.is := rfl
@[simp] theorem State.setMem_run (m : Memory) : (s.setMem m).run = s.run := rfl
@[simp] theorem State.setMem_cause (m : Memory) : (s.setMem m).cause = s.cause := rfl
@[simp] theorem State.setMem_out (m : Memory) : (s.setMem m).out = s.out := rfl
@[simp] theorem State.setMem_reg (m : Memory) (j : Fin 8) : (s.setMem m).reg j = s.reg j := rfl

/-! ### emit -/

@[simp] theorem State.emit_mem (cs : List Byte) : (s.emit cs).mem = s.mem := rfl
@[simp] theorem State.emit_regs (cs : List Byte) : (s.emit cs).regs = s.regs := rfl
@[simp] theorem State.emit_pc (cs : List Byte) : (s.emit cs).pc = s.pc := rfl
@[simp] theorem State.emit_fl (cs : List Byte) : (s.emit cs).fl = s.fl := rfl
@[simp] theorem State.emit_sp (cs : List Byte) : (s.emit cs).sp = s.sp := rfl
@[simp] theorem State.emit_im (cs : List Byte) : (s.emit cs).im = s.im := rfl
@[simp] theorem State.emit_is (cs : List Byte) : (s.emit cs).is = s.is := rfl
@[simp] theorem State.emit_run (cs : List Byte) : (s.emit cs).run = s.run := rfl
@[simp] theorem State.emit_cause (cs : List Byte) : (s.emit cs).cause = s.cause := rfl
@[simp] theorem State.emit_out (cs : List Byte) : (s.emit cs).out = s.out ++ cs := rfl
@[simp] theorem State.emit_reg (cs : List Byte) (j : Fin 8) : (s.emit cs).reg j = s.reg j := rfl

/-! ### halt -/

@[simp] theorem State.halt_mem (c : HaltCause) : (s.halt c).mem = s.mem := rfl
@[simp] theorem State.halt_regs (c : HaltCause) : (s.halt c).regs = s.regs := rfl
@[simp] theorem State.halt_pc (c : HaltCause) : (s.halt c).pc = s.pc := rfl
@[simp] theorem State.halt_fl (c : HaltCause) : (s.halt c).fl = s.fl := rfl
@[simp] theorem State.halt_sp (c : HaltCause) : (s.halt c).sp = s.sp := rfl
@[simp] theorem State.halt_im (c : HaltCause) : (s.halt c).im = s.im := rfl
@[simp] theorem State.halt_is (c : HaltCause) : (s.halt c).is = s.is := rfl
@[simp] theorem State.halt_run (c : HaltCause) : (s.halt c).run = .halted := rfl
@[simp] theorem State.halt_cause (c : HaltCause) : (s.halt c).cause = some c := rfl
@[simp] theorem State.halt_out (c : HaltCause) : (s.halt c).out = s.out := rfl
@[simp] theorem State.halt_reg (c : HaltCause) (j : Fin 8) : (s.halt c).reg j = s.reg j := rfl

/-! ### Reading a register after writing one (R22, R23) -/

@[simp] theorem State.setReg_reg_same (i : Fin 8) (v : Byte) : (s.setReg i v).reg i = v := by
  simp [State.setReg, State.reg]

theorem State.setReg_reg_other {i j : Fin 8} (v : Byte) (h : j ≠ i) : (s.setReg i v).reg j = s.reg j := by
  have hne : i.val ≠ j.val := fun e => h (Fin.ext e.symm)
  simp [State.setReg, State.reg, hne]

theorem State.setReg_reg (i j : Fin 8) (v : Byte) : (s.setReg i v).reg j = if j = i then v else s.reg j := by
  by_cases h : j = i
  · subst h; simp
  · simp [h, State.setReg_reg_other s v h]

@[simp] theorem State.address_eq (i : Fin 8) : s.address i = (s.reg i).toNat := rfl

end Updates

/-! ### Outcomes -/

@[simp] theorem nextState?_next (t : State) : nextState? (.next t) = some t := rfl

@[simp] theorem mapNext_next (f : State → State) (t : State) : mapNext f (.next t) = .next (f t) := rfl

/-- Two register files that agree on every register are equal. -/
theorem regs_ext {v w : Vector Byte 8} (h : ∀ i : Fin 8, v[i] = w[i]) : v = w :=
  Vector.ext fun i hi => h ⟨i, hi⟩

end Sys2Proof.Machine
end

