-- ==== Sys2Proof/Laws/Memory.lean ====
section
/-!
SUPPORT. The laws of memory: read after write (R51, R52), and every operation keeps the canonical form.
-/

namespace Sys2Proof.Machine

/-! ## Cells -/

theorem cellAt_insertCell (a b : Nat) (v : Byte) (cs : List Host.Cell) :
    cellAt b (insertCell a v cs) = if b = a then v else cellAt b cs := by
  induction cs with
  | nil => simp [insertCell, cellAt, eq_comm]
  | cons c cs ih =>
    obtain ⟨k, w⟩ := c
    by_cases hba : b = a
    · subst hba
      simp only [insertCell, if_true] at ih ⊢
      split
      · simp [cellAt]
      · split
        · simp [cellAt]
        · next hk => simp [cellAt, hk, ih]
    · simp only [insertCell, if_neg hba] at ih ⊢
      split
      · simp [cellAt, Ne.symm hba]
      · split
        · next hk => simp [cellAt, hk, Ne.symm hba]
        · simp [cellAt, ih]

theorem cellAt_removeCell (a b : Nat) (cs : List Host.Cell) :
    cellAt b (removeCell a cs) = if b = a then Config.unlistedByte else cellAt b cs := by
  induction cs with
  | nil => simp [removeCell, cellAt]
  | cons c cs ih =>
    obtain ⟨k, w⟩ := c
    by_cases hk : k = a
    · have hrem : removeCell a ((k, w) :: cs) = removeCell a cs := by simp [removeCell, hk]
      rw [hrem, ih]
      split
      · rfl
      · simp only [cellAt]; split <;> simp_all
    · have hrem : removeCell a ((k, w) :: cs) = (k, w) :: removeCell a cs := by simp [removeCell, hk]
      rw [hrem]
      simp only [cellAt, ih]
      split <;> split <;> simp_all

theorem cellAt_putCell (a b : Nat) (v : Byte) (cs : List Host.Cell) :
    cellAt b (putCell a v cs) = if b = a then v else cellAt b cs := by
  simp only [putCell]
  split
  · next hv => rw [cellAt_removeCell, hv]
  · exact cellAt_insertCell a b v cs

/-! ## The canonical form -/

theorem cellsWf_cons (lo size k : Nat) (v : Byte) (cs : List Host.Cell) :
    cellsWf lo size ((k, v) :: cs) = true ↔
      lo ≤ k ∧ k < size ∧ v ≠ Config.unlistedByte ∧ cellsWf (k + 1) size cs = true := by
  simp [cellsWf, and_assoc]

theorem cellsWf_weaken {lo lo' size : Nat} (h : lo' ≤ lo) {cs : List Host.Cell} (hw : cellsWf lo size cs = true) :
    cellsWf lo' size cs = true := by
  cases cs with
  | nil => rfl
  | cons c cs =>
    obtain ⟨k, v⟩ := c
    rw [cellsWf_cons] at hw ⊢
    exact ⟨h.trans hw.1, hw.2⟩

theorem cellsWf_insertCell {lo size a : Nat} {v : Byte} (hlo : lo ≤ a) (ha : a < size)
    (hv : v ≠ Config.unlistedByte) {cs : List Host.Cell} (hw : cellsWf lo size cs = true) :
    cellsWf lo size (insertCell a v cs) = true := by
  induction cs generalizing lo with
  | nil => simp [insertCell, cellsWf, hlo, ha, hv]
  | cons c cs ih =>
    obtain ⟨k, w⟩ := c
    have hk := (cellsWf_cons ..).mp hw
    simp only [insertCell]
    split
    · next hak =>
      exact (cellsWf_cons ..).mpr ⟨hlo, ha, hv, (cellsWf_cons ..).mpr ⟨hak, hk.2⟩⟩
    · split
      · next hka => subst hka; exact (cellsWf_cons ..).mpr ⟨hlo, ha, hv, hk.2.2.2⟩
      · exact (cellsWf_cons ..).mpr ⟨hk.1, hk.2.1, hk.2.2.1, ih (by omega) hk.2.2.2⟩

theorem cellsWf_removeCell {lo size : Nat} (a : Nat) {cs : List Host.Cell} (hw : cellsWf lo size cs = true) :
    cellsWf lo size (removeCell a cs) = true := by
  induction cs generalizing lo with
  | nil => rfl
  | cons c cs ih =>
    obtain ⟨k, w⟩ := c
    have hk := (cellsWf_cons ..).mp hw
    by_cases hka : k = a
    · have hrem : removeCell a ((k, w) :: cs) = removeCell a cs := by simp [removeCell, hka]
      rw [hrem]
      exact ih (cellsWf_weaken (by omega) hk.2.2.2)
    · have hrem : removeCell a ((k, w) :: cs) = (k, w) :: removeCell a cs := by simp [removeCell, hka]
      rw [hrem]
      exact (cellsWf_cons ..).mpr ⟨hk.1, hk.2.1, hk.2.2.1, ih hk.2.2.2⟩

theorem cellsWf_putCell {size a : Nat} (v : Byte) (ha : a < size) {cs : List Host.Cell}
    (hw : cellsWf 0 size cs = true) : cellsWf 0 size (putCell a v cs) = true := by
  simp only [putCell]
  split
  · exact cellsWf_removeCell a hw
  · next hv => exact cellsWf_insertCell (Nat.zero_le a) ha hv hw

/-! ## Memory -/

theorem Memory.write_eq_some {m m' : Memory} {a : Nat} {v : Byte} :
    m.write a v = some m' ↔ a < m.size ∧ m' = { m with cells := putCell a v m.cells } := by
  simp only [Memory.write]
  split <;> simp_all [eq_comm]

theorem Memory.read_of_lt {m : Memory} {a : Nat} (h : a < m.size) : m.read a = some (cellAt a m.cells) := by
  simp [Memory.read, h]

theorem Memory.read_eq_none {m : Memory} {a : Nat} : m.read a = none ↔ m.size ≤ a := by
  simp [Memory.read]

theorem Memory.write_eq_none {m : Memory} {a : Nat} {v : Byte} : m.write a v = none ↔ m.size ≤ a := by
  simp [Memory.write]

theorem Memory.size_of_write {m m' : Memory} {a : Nat} {v : Byte} (h : m.write a v = some m') :
    m'.size = m.size := by
  rw [Memory.write_eq_some] at h
  rw [h.2]

/-- After a store, the address stored to reads as the byte, and every other address as before (R52). -/
theorem Memory.read_of_write {m m' : Memory} {a : Nat} {v : Byte} (h : m.write a v = some m') (b : Nat) :
    m'.read b = if b = a then some v else m.read b := by
  obtain ⟨ha, rfl⟩ := Memory.write_eq_some.mp h
  simp only [Memory.read, cellAt_putCell]
  split <;> split <;> simp_all

/-- A store keeps the canonical form. -/
theorem Memory.wf_of_write {m m' : Memory} {a : Nat} {v : Byte} (h : m.write a v = some m')
    (hw : m.wf = true) : m'.wf = true := by
  obtain ⟨ha, rfl⟩ := Memory.write_eq_some.mp h
  simp only [Memory.wf, Bool.and_eq_true] at hw ⊢
  exact ⟨hw.1, cellsWf_putCell v ha hw.2⟩

theorem Memory.size_le_of_wf {m : Memory} (h : m.wf = true) : m.size ≤ 256 := by
  simp only [Memory.wf, Bool.and_eq_true, decide_eq_true_eq] at h
  omega

theorem Memory.one_le_size_of_wf {m : Memory} (h : m.wf = true) : 1 ≤ m.size := by
  simp only [Memory.wf, Bool.and_eq_true, decide_eq_true_eq] at h
  omega

theorem State.reset_mem_wf : State.reset.mem.wf = true := by decide

/-- Placing bytes keeps the canonical form. -/
theorem placeBytes_wf (bs : List Byte) (m : Memory) (a : Nat) (hw : m.wf = true) : (placeBytes m a bs).wf = true := by
  induction bs generalizing m a with
  | nil => exact hw
  | cons b bs ih =>
    simp only [placeBytes]
    cases hwr : m.write a b with
    | none => exact ih m (a + 1) hw
    | some m' => exact ih m' (a + 1) (Memory.wf_of_write hwr hw)

/-- A sequence of loads keeps the canonical form. -/
theorem loadAll_wf (cs : List Host.Cell) (s t : State) (h : s.loadAll cs = .next t) (hw : s.mem.wf = true) :
    t.mem.wf = true := by
  induction cs generalizing s with
  | nil => simp only [State.loadAll, Host.Outcome.next.injEq] at h; exact h ▸ hw
  | cons c cs ih =>
    obtain ⟨a, b⟩ := c
    simp only [State.loadAll, State.load] at h
    cases hwr : s.mem.write a b with
    | none => simp [hwr] at h
    | some m => rw [hwr] at h; exact ih (s.setMem m) h (Memory.wf_of_write hwr hw)

end Sys2Proof.Machine
end

