-- ==== Sys2Proof/Laws/Ops.lean ====
section
/-!
SUPPORT. One lemma per shared operation: everything it can answer.
-/

namespace Sys2Proof.Machine

/-! ## Narrowing (R14) -/

theorem narrow_natCast (n : Nat) : narrow (n : Int) = BitVec.ofNat 8 n := by
  simp [narrow]

theorem narrow_add (a b : Byte) : narrow (a.toNat + b.toNat) = a + b := by
  rw [← Int.natCast_add, narrow_natCast]; exact BitVec.eq_of_toNat_eq (by simp)

theorem narrow_toNat_add (a : Byte) (k : Nat) : narrow (a.toNat + (k : Int)) = a + BitVec.ofNat 8 k := by
  rw [← Int.natCast_add, narrow_natCast]; exact BitVec.eq_of_toNat_eq (by simp)

@[simp] theorem narrow_toNat_add_one (a : Byte) : narrow (a.toNat + 1) = a + 1 := narrow_toNat_add a 1

theorem narrow_sub (a b : Byte) : narrow ((a.toNat : Int) - b.toNat) = a - b := by
  apply BitVec.eq_of_toNat_eq
  simp only [narrow, BitVec.toNat_ofInt, BitVec.toNat_sub]
  omega

@[simp] theorem narrow_toNat_sub_one (a : Byte) : narrow ((a.toNat : Int) - 1) = a - 1 := narrow_sub a 1

theorem narrow_mul (a b : Byte) : narrow ((a.toNat : Int) * b.toNat) = a * b := by
  rw [← Int.natCast_mul, narrow_natCast]; exact BitVec.eq_of_toNat_eq (by simp)

theorem narrow_div (a b : Byte) : narrow ((a.toNat / b.toNat : Nat) : Int) = a / b := by
  rw [narrow_natCast]; exact BitVec.eq_of_toNat_eq (by simp [Nat.mod_eq_of_lt (Nat.lt_of_le_of_lt (Nat.div_le_self _ _) a.isLt)])

/-! ## The result monad -/

@[simp] theorem ok_bind {ε α β : Type} (a : α) (f : α → Except ε β) : ((Except.ok a : Except ε α) >>= f) = f a := rfl

@[simp] theorem error_bind {ε α β : Type} (e : ε) (f : α → Except ε β) :
    ((Except.error e : Except ε α) >>= f) = .error e := rfl

theorem bind_eq_ok {ε α β : Type} {x : Except ε α} {f : α → Except ε β} {b : β} :
    (x >>= f) = .ok b ↔ ∃ a, x = .ok a ∧ f a = .ok b := by
  cases x with
  | error e => simp
  | ok a => simp

theorem bind_eq_error {ε α β : Type} {x : Except ε α} {f : α → Except ε β} {e : ε} :
    (x >>= f) = .error e ↔ x = .error e ∨ ∃ a, x = .ok a ∧ f a = .error e := by
  cases x with
  | error e' => simp
  | ok a => simp

/-! ## Memory accesses of an instruction's rule -/

theorem memRead_ok {s : State} {a : Nat} {v : Byte} : memRead s a = .ok v ↔ s.mem.read a = some v := by
  cases hr : s.mem.read a <;> simp [memRead, hr]

theorem memRead_error {s : State} {a : Nat} {e : Raise} :
    memRead s a = .error e ↔ s.mem.size ≤ a ∧ e = { code := .outOfBounds, detail := a } := by
  rw [← Memory.read_eq_none]
  cases hr : s.mem.read a <;> simp [memRead, hr, eq_comm]

theorem memWrite_ok {s t : State} {a : Nat} {v : Byte} :
    memWrite s a v = .ok t ↔ ∃ m, s.mem.write a v = some m ∧ t = s.setMem m := by
  cases hr : s.mem.write a v <;> simp [memWrite, hr, eq_comm]

theorem memWrite_error {s : State} {a : Nat} {v : Byte} {e : Raise} :
    memWrite s a v = .error e ↔ s.mem.size ≤ a ∧ e = { code := .outOfBounds, detail := a } := by
  rw [← Memory.write_eq_none (v := v)]
  cases hr : s.mem.write a v <;> simp [memWrite, hr, eq_comm]

/-! ## The stack manager -/

/-- `Push` succeeds exactly when the decremented SP is inside memory, and then stores there (R58). -/
theorem push_ok {s t : State} {v : Byte} :
    push s v = .ok t ↔ ∃ m, s.mem.write (s.sp - 1).toNat v = some m ∧ t = (s.setSp (s.sp - 1)).setMem m := by
  simp [push, memWrite_ok]

theorem push_error {s : State} {v : Byte} {e : Raise} :
    push s v = .error e ↔
      s.mem.size ≤ (s.sp - 1).toNat ∧ e = { code := .outOfBounds, detail := (s.sp - 1).toNat } := by
  simp [push, memWrite_error]

/-- `Pop` succeeds exactly when SP is inside memory; it reads there and increments SP (R59). -/
theorem pop_ok {s t : State} {v : Byte} :
    pop s = .ok (v, t) ↔ s.mem.read s.sp.toNat = some v ∧ t = s.setSp (s.sp + 1) := by
  simp only [pop, bind_eq_ok, memRead_ok, narrow_toNat_add_one, Except.ok.injEq, Prod.mk.injEq]
  exact ⟨fun ⟨a, ha, hv, ht⟩ => ⟨hv ▸ ha, ht.symm⟩, fun ⟨hv, ht⟩ => ⟨v, hv, rfl, ht.symm⟩⟩

theorem pop_error {s : State} {e : Raise} :
    pop s = .error e ↔ s.mem.size ≤ s.sp.toNat ∧ e = { code := .outOfBounds, detail := s.sp.toNat } := by
  simp [pop, bind_eq_error, memRead_error]

/-! ## The end of an instruction -/

/-- Everything `conclude` can answer: a fault taken from `s`, a halt, an advance, or a redirect (R79). -/
theorem conclude_cases {m : Mnemonic} {s t : State} {r : Except Raise Flow} (h : conclude m s r = .next t) :
    (∃ e, r = .error e ∧ t = s.takeFault (some m.opcode) e) ∨
    (r = .ok .halt ∧ t = s.halt { code := .hlt, pc := s.pc, op := some m.opcode, detail := none }) ∨
    (∃ u, r = .ok (.advance u) ∧ t = u.setPc (narrow (s.pc.toNat + m.length))) ∨
    r = .ok (.redirect t) := by
  match r, h with
  | .error e, h => cases h; exact .inl ⟨e, rfl, rfl⟩
  | .ok .halt, h => cases h; exact .inr (.inl ⟨rfl, rfl⟩)
  | .ok (.advance u), h => cases h; exact .inr (.inr (.inl ⟨u, rfl, rfl⟩))
  | .ok (.redirect u), h => cases h; exact .inr (.inr (.inr rfl))

@[simp] theorem conclude_error (m : Mnemonic) (s : State) (e : Raise) :
    conclude m s (.error e) = .next (s.takeFault (some m.opcode) e) := rfl

@[simp] theorem conclude_advance (m : Mnemonic) (s t : State) :
    conclude m s (.ok (.advance t)) = .next (t.setPc (s.pc + BitVec.ofNat 8 m.length)) := by
  simp [conclude, narrow_toNat_add]

@[simp] theorem conclude_redirect (m : Mnemonic) (s t : State) : conclude m s (.ok (.redirect t)) = .next t := rfl

@[simp] theorem conclude_halt (m : Mnemonic) (s : State) :
    conclude m s (.ok .halt) =
      .next (s.halt { code := .hlt, pc := s.pc, op := some m.opcode, detail := none }) := rfl

/-- Taking a fault is the state R201 describes. -/
@[simp] theorem takeFault_eq_faulted (s : State) (op : Option Byte) (e : Raise) :
    s.takeFault op e = faulted s e.code op e.detail := rfl

/-! ## The load port -/

/-- A load is accepted exactly inside memory, and changes memory as a write does. -/
theorem load_next {s t : State} {a : Nat} {b : Byte} :
    s.load a b = .next t ↔ ∃ m, s.mem.write a b = some m ∧ t = s.setMem m := by
  cases h : s.mem.write a b <;> simp [State.load, h, eq_comm]

/-- A load is refused exactly outside memory. -/
theorem load_refused {s : State} {a : Nat} {b : Byte} {r : Refusal} :
    s.load a b = .refused r ↔ s.mem.size ≤ a ∧ r = .loadOutsideMemory a := by
  rw [← Memory.write_eq_none (v := b)]
  cases h : s.mem.write a b <;> simp [State.load, h, eq_comm]

/-- A sequence of loads after another is the two in order. -/
theorem loadAll_append_next {xs ys : List Host.Cell} {s t : State} :
    s.loadAll (xs ++ ys) = .next t ↔ ∃ u, s.loadAll xs = .next u ∧ u.loadAll ys = .next t := by
  induction xs generalizing s with
  | nil => simp [State.loadAll]
  | cons x xs ih =>
    obtain ⟨a, b⟩ := x
    simp only [List.cons_append, State.loadAll]
    cases s.load a b <;> simp [ih]

end Sys2Proof.Machine
end

