-- ==== Sys2Proof/Laws/Operands.lean ====
section
/-!
SUPPORT. The operand forms: when a register operand is legal and what an illegal one raises (R76, R83).
-/

namespace Sys2Proof.Machine

theorem regOperand_ok {b : Byte} (h : b.toNat < 8) : regOperand b = .ok ⟨b.toNat, h⟩ := by
  simp [regOperand, h]

theorem regOperand_error {b : Byte} (h : 7 < b.toNat) :
    regOperand b = .error { code := .invalidRegister, detail := b.toNat } := by
  simp [regOperand, show ¬ b.toNat < 8 by omega]

/-- Everything a register operand can come to. -/
theorem regOperand_cases (b : Byte) :
    (∃ h : b.toNat < 8, regOperand b = .ok ⟨b.toNat, h⟩) ∨
    (7 < b.toNat ∧ regOperand b = .error { code := .invalidRegister, detail := b.toNat }) := by
  by_cases h : b.toNat < 8
  · exact .inl ⟨h, regOperand_ok h⟩
  · exact .inr ⟨by omega, regOperand_error (by omega)⟩

theorem regOperand_eq_ok {b : Byte} {i : Fin 8} : regOperand b = .ok i ↔ b.toNat = i.val := by
  obtain ⟨i, hi⟩ := i
  rcases regOperand_cases b with ⟨h, he⟩ | ⟨h, he⟩
  · simp [he]
  · simp [he]; omega

theorem regOperands_ok {rA rB : Byte} (hA : rA.toNat < 8) (hB : rB.toNat < 8) :
    regOperands rA rB = .ok (⟨rA.toNat, hA⟩, ⟨rB.toNat, hB⟩) := by
  simp [regOperands, regOperand_ok hA, regOperand_ok hB]

theorem regOperands_first {rA : Byte} (rB : Byte) (hA : 7 < rA.toNat) :
    regOperands rA rB = .error { code := .invalidRegister, detail := rA.toNat } := by
  simp [regOperands, regOperand_error hA]

theorem regOperands_second {rA rB : Byte} (hA : rA.toNat < 8) (hB : 7 < rB.toNat) :
    regOperands rA rB = .error { code := .invalidRegister, detail := rB.toNat } := by
  simp [regOperands, regOperand_ok hA, regOperand_error hB]

/-- Everything two register operands can come to, `rA` checked first. -/
theorem regOperands_cases (rA rB : Byte) :
    (∃ (hA : rA.toNat < 8) (hB : rB.toNat < 8), regOperands rA rB = .ok (⟨rA.toNat, hA⟩, ⟨rB.toNat, hB⟩)) ∨
    (7 < rA.toNat ∧ regOperands rA rB = .error { code := .invalidRegister, detail := rA.toNat }) ∨
    (rA.toNat < 8 ∧ 7 < rB.toNat ∧ regOperands rA rB = .error { code := .invalidRegister, detail := rB.toNat }) := by
  rcases Nat.lt_or_ge rA.toNat 8 with hA | hA
  · rcases Nat.lt_or_ge rB.toNat 8 with hB | hB
    · exact .inl ⟨hA, hB, regOperands_ok hA hB⟩
    · exact .inr (.inr ⟨hA, hB, regOperands_second hA hB⟩)
  · exact .inr (.inl ⟨hA, regOperands_first rB hA⟩)

theorem regOperands_eq_ok {rA rB : Byte} {i j : Fin 8} :
    regOperands rA rB = .ok (i, j) ↔ rA.toNat = i.val ∧ rB.toNat = j.val := by
  simp only [regOperands, bind_eq_ok, regOperand_eq_ok, Except.ok.injEq, Prod.mk.injEq]
  exact ⟨fun ⟨a, ha, b, hb, hi, hj⟩ => ⟨hi ▸ ha, hj ▸ hb⟩, fun ⟨hi, hj⟩ => ⟨i, hi, j, hj, rfl, rfl⟩⟩

end Sys2Proof.Machine
end

