-- ==== Sys2Proof/Laws/Alu.lean ====
section
/-!
SUPPORT. The flags register and the ALU: the laws of R131 to R133 as byte arithmetic, CMP's update as the
formula of R142, and what an ALU instruction's rule can answer.
-/

namespace Sys2Proof.Machine

/-! ## Flags -/

/-- CMP's update as R142 writes it: bits 7:3 kept, E, G, L in bits 0, 1, 2. -/
theorem setCompareFlags_eq (fl : Byte) (e g l : Bool) :
    setCompareFlags fl e g l =
      (fl &&& 0xF8) ||| (if e then 1 else 0) ||| (if g then 2 else 0) ||| (if l then 4 else 0) := by
  revert fl e g l
  decide

theorem getFlag_flagE (fl : Byte) : getFlag fl flagE = decide (fl &&& 1 = 1) := by
  revert fl
  decide

/-- CMP leaves legal flags where bits 7:3 were zero (R142). -/
theorem setCompareFlags_legal {fl : Byte} (h : legalFlags fl) (a b : Nat) :
    legalFlags (setCompareFlags fl (a = b) (a > b) (a < b)) := by
  have hfl : fl &&& 0xF8 = 0 := by rcases h with rfl | rfl | rfl | rfl <;> decide
  rw [setCompareFlags_eq, hfl]
  rcases Nat.lt_trichotomy a b with hab | hab | hab
  · simp [legalFlags, hab, Nat.ne_of_lt hab, Nat.not_lt_of_gt hab]
  · simp [legalFlags, hab]
  · simp [legalFlags, hab, Nat.ne_of_gt hab, Nat.not_lt_of_gt hab]

/-! ## The ALU -/

theorem alu_add (a b : Byte) : alu .add a b = .ok (.byte (a + b)) := by simp [alu, narrow_add]

theorem alu_sub (a b : Byte) : alu .sub a b = .ok (.byte (a - b)) := by simp [alu, narrow_sub]

theorem alu_mul (a b : Byte) : alu .mul a b = .ok (.byte (a * b)) := by simp [alu, narrow_mul]

theorem alu_div {a b : Byte} (h : b.toNat ≠ 0) : alu .div a b = .ok (.byte (a / b)) := by
  simp only [alu, if_neg h, narrow_div]

theorem alu_div_zero {a b : Byte} (h : b.toNat = 0) : alu .div a b = .error .divideByZero := by
  simp only [alu, if_pos h]

theorem alu_inc (a b : Byte) : alu .inc a b = .ok (.byte (a + 1)) := by simp [alu]

theorem alu_dec (a b : Byte) : alu .dec a b = .ok (.byte (a - 1)) := by simp [alu]

/-- What an ALU instruction's rule can answer: a register write, a flag write, DivideByZero, or (for a code
outside the seven) UnknownALUOp. -/
theorem aluApply_cases (op : AluOp) (d e : Fin 8) (s : State) :
    (∃ v, op ≠ .cmp ∧ aluApply op d e s = .ok (.advance (s.setReg d v))) ∨
    (op = .cmp ∧ aluApply op d e s = .ok (.advance (s.setFl (setCompareFlags s.fl
      ((s.reg d).toNat = (s.reg e).toNat) ((s.reg d).toNat > (s.reg e).toNat)
      ((s.reg d).toNat < (s.reg e).toNat))))) ∨
    (op = .div ∧ aluApply op d e s = .error { code := .divideByZero, detail := e }) ∨
    (∃ c, op = .other c ∧ aluApply op d e s = .error { code := .unknownAluOp, detail := c }) := by
  cases op with
  | add => exact .inl ⟨_, by simp, rfl⟩
  | sub => exact .inl ⟨_, by simp, rfl⟩
  | mul => exact .inl ⟨_, by simp, rfl⟩
  | inc => exact .inl ⟨_, by simp, rfl⟩
  | dec => exact .inl ⟨_, by simp, rfl⟩
  | cmp => exact .inr (.inl ⟨rfl, rfl⟩)
  | other c => exact .inr (.inr (.inr ⟨c, rfl, rfl⟩))
  | div =>
    by_cases h : (s.reg e).toNat = 0
    · exact .inr (.inr (.inl ⟨rfl, by simp [aluApply, alu_div_zero h]⟩))
    · exact .inl ⟨_, by simp, by simp [aluApply, alu_div h]; rfl⟩

end Sys2Proof.Machine
end

