-- ==== Sys2Proof/Laws/Decode.lean ====
section
/-!
SUPPORT. The opcode map is one to one and agrees with the encoder's opcodes (R75), and what the decoder can
answer (R79 steps (3) to (6)).
-/

namespace Sys2Proof

/-- No two rows of the opcode map share an opcode byte or a mnemonic. -/
theorem opcodeMap_distinct : opcodeMap.Pairwise (fun x y => x.1 ≠ y.1 ∧ x.2 ≠ y.2) := by decide

theorem opcodeLookup_opcode (m : Mnemonic) : opcodeLookup m.opcode = some m := by
  cases m <;> rfl

theorem opcode_of_lookup {op : Byte} {m : Mnemonic} (h : opcodeLookup op = some m) : op = m.opcode := by
  have hm : (op, m) ∈ opcodeMap := by
    obtain ⟨l, _, he, _⟩ := List.lookup_eq_some_iff.mp (show opcodeMap.lookup op = some m from h)
    rw [he]
    simp
  have hall : ∀ x ∈ opcodeMap, x.1 = x.2.opcode := by decide
  exact hall _ hm

/-- The length of each mnemonic's instruction by its format (R71 to R74). -/
theorem length_of_format (m : Mnemonic) :
    m.length = match m.format with | .z => 1 | .r => 2 | .rr => 3 | .ri => 3 := by
  cases m <;> rfl

/-- An instruction's encoding has its mnemonic's length. -/
theorem length_encode (i : Instr) : (encode i).length = i.mnemonic.length := by
  rw [length_of_format]
  cases i <;> rfl

theorem mnemonic_instr (m : Mnemonic) (a b : Byte) : (m.instr a b).mnemonic = m := by
  cases m <;> rfl

/-- Everything the decoder can answer, given the byte source. -/
theorem decodeWith_cases (byte : Nat → Option Byte) :
    (byte 0 = none ∧ decodeWith byte = .error .noOpcode) ∨
    (∃ op, byte 0 = some op ∧ opcodeLookup op = none ∧ decodeWith byte = .error (.unknownOpcode op)) ∨
    (∃ m : Mnemonic, byte 0 = some m.opcode ∧ 2 ≤ m.length ∧ byte 1 = none ∧
      decodeWith byte = .error (.noOperand m.opcode 1)) ∨
    (∃ m : Mnemonic, byte 0 = some m.opcode ∧ 3 ≤ m.length ∧ byte 1 ≠ none ∧ byte 2 = none ∧
      decodeWith byte = .error (.noOperand m.opcode 2)) ∨
    (∃ i : Instr, (∀ k < (encode i).length, byte k = (encode i)[k]?) ∧ decodeWith byte = .ok i) := by
  cases h0 : byte 0 with
  | none => exact .inl ⟨rfl, by simp [decodeWith, h0]⟩
  | some op =>
    cases hl : opcodeLookup op with
    | none => exact .inr (.inl ⟨op, rfl, hl, by simp [decodeWith, h0, hl]⟩)
    | some m =>
      obtain rfl := opcode_of_lookup hl
      refine .inr (.inr ?_)
      cases h1 : byte 1 with
      | none =>
        cases m with
        | nop | hlt | ret | iret =>
          refine .inr (.inr ⟨Mnemonic.instr _ 0 0, fun k hk => ?_, by simp [decodeWith, h0, hl]; rfl⟩)
          obtain rfl : k = 0 := Nat.lt_one_iff.mp hk
          exact h0
        | _ => exact .inl ⟨_, rfl, by decide, rfl, by simp [decodeWith, h0, hl, h1]; decide⟩
      | some a =>
        cases h2 : byte 2 with
        | none =>
          cases m with
          | nop | hlt | ret | iret =>
            refine .inr (.inr ⟨Mnemonic.instr _ 0 0, fun k hk => ?_, by simp [decodeWith, h0, hl]; rfl⟩)
            obtain rfl : k = 0 := Nat.lt_one_iff.mp hk
            exact h0
          | push | pop | prn | pra | call | int | jmp | jeq | jne | inc | dec =>
            refine .inr (.inr ⟨Mnemonic.instr _ a 0, fun k hk => ?_, by simp [decodeWith, h0, hl, h1]; rfl⟩)
            change k < 2 at hk
            obtain rfl | rfl : k = 0 ∨ k = 1 := by omega
            · exact h0
            · exact h1
          | _ => exact .inr (.inl ⟨_, rfl, by decide, by simp, rfl, by simp [decodeWith, h0, hl, h1, h2]; rfl⟩)
        | some b =>
          refine .inr (.inr ⟨m.instr a b, fun k hk => ?_, by cases m <;> simp [decodeWith, h0, hl, h1, h2] <;> rfl⟩)
          cases m with
          | nop | hlt | ret | iret =>
            obtain rfl : k = 0 := Nat.lt_one_iff.mp hk
            exact h0
          | push | pop | prn | pra | call | int | jmp | jeq | jne | inc | dec =>
            change k < 2 at hk
            obtain rfl | rfl : k = 0 ∨ k = 1 := by omega
            · exact h0
            · exact h1
          | _ =>
            change k < 3 at hk
            obtain rfl | rfl | rfl : k = 0 ∨ k = 1 ∨ k = 2 := by omega
            · exact h0
            · exact h1
            · exact h2

end Sys2Proof
end

