-- ==== Sys2Proof/Laws/Exec.lean ====
section
/-!
SUPPORT. Everything the execution of an instruction can do, said once (`exec_effect`), and everything a tick
can do (`step_cases`). Whole-machine facts are case splits over these.
-/

namespace Sys2Proof.Machine

/-- The address after instruction `i` at `s`. -/
def nextPc (i : Instr) (s : State) : Byte := s.pc + BitVec.ofNat 8 i.mnemonic.length

/-- The effects an instruction can have, each with the instructions that have it. -/
inductive Effect (i : Instr) (s : State) : State → Prop where
  /-- A fault of the instruction's own; none has the code of HLT or of UnknownALUOp. -/
  | fault (e : Raise) (hcode : e.code ≠ .hlt ∧ e.code ≠ .unknownAluOp)
      (hreg : e.code = .invalidRegister → i.wellFormed = false)
      (hmem : e.code = .outOfBounds → s.mem.size ≤ e.detail ∧ e.detail < 256) :
      Effect i s (s.takeFault (some i.mnemonic.opcode) e)
  | halt (hi : i = .hlt) :
      Effect i s (s.halt { code := .hlt, pc := s.pc, op := some i.mnemonic.opcode, detail := none })
  /-- NOP, and a jump not taken. -/
  | nothing (hi : i = .nop ∨ (∃ rA, i = .jeq rA ∧ getFlag s.fl flagE = false) ∨
        (∃ rA, i = .jne rA ∧ getFlag s.fl flagE = true)) :
      Effect i s (s.setPc (nextPc i s))
  | jump (v : Byte) (hi : (∃ rA, i = .jmp rA) ∨ (∃ rA, i = .jeq rA ∧ getFlag s.fl flagE = true) ∨
        (∃ rA, i = .jne rA ∧ getFlag s.fl flagE = false)) :
      Effect i s (s.setPc v)
  | writeReg (d : Fin 8) (v rA rB : Byte) (hd : rA.toNat = d.val)
      (hi : i ∈ [.ldi rA rB, .ld rA rB, .add rA rB, .sub rA rB, .mul rA rB, .div rA rB, .inc rA, .dec rA]) :
      Effect i s ((s.setReg d v).setPc (nextPc i s))
  | compare (a b : Nat) (rA rB : Byte) (hi : i = .cmp rA rB) :
      Effect i s ((s.setFl (setCompareFlags s.fl (a = b) (a > b) (a < b))).setPc (nextPc i s))
  | emit (cs : List Byte) (rA : Byte) (hi : i = .prn rA ∨ i = .pra rA) :
      Effect i s ((s.emit cs).setPc (nextPc i s))
  | raiseLine (n : Nat) (rA : Byte) (hi : i = .int rA) (hn : n < 8) :
      Effect i s ((s.setIs (s.is ||| (1 : Byte) <<< n)).setPc (nextPc i s))
  | store (d e : Fin 8) (m : Memory) (rA rB : Byte) (hi : i = .st rA rB) (hd : rA.toNat = d.val)
      (he : rB.toNat = e.val) (hm : s.mem.write (s.reg d).toNat (s.reg e) = some m) :
      Effect i s ((s.setMem m).setPc (nextPc i s))
  | push (d : Fin 8) (m : Memory) (rA : Byte) (hi : i = .push rA) (hd : rA.toNat = d.val)
      (hm : s.mem.write (s.sp - 1).toNat (s.reg d) = some m) :
      Effect i s (((s.setSp (s.sp - 1)).setMem m).setPc (nextPc i s))
  | call (d : Fin 8) (m : Memory) (rA : Byte) (hi : i = .call rA) (hd : rA.toNat = d.val)
      (hm : s.mem.write (s.sp - 1).toNat (s.pc + 2) = some m) :
      Effect i s (((s.setSp (s.sp - 1)).setMem m).setPc (s.reg d))
  | pop (d : Fin 8) (v rA : Byte) (hi : i = .pop rA) (hd : rA.toNat = d.val)
      (hv : s.mem.read s.sp.toNat = some v) :
      Effect i s (((s.setSp (s.sp + 1)).setReg d v).setPc (nextPc i s))
  | ret (v : Byte) (hi : i = .ret) (hv : s.mem.read s.sp.toNat = some v) :
      Effect i s ((s.setSp (s.sp + 1)).setPc v)
  | iret (regs : Vector Byte 8) (v : Byte) (hi : i = .iret) :
      Effect i s { s with regs := regs, pc := v, sp := s.sp + 9 }

/-! ## The pops of IRET -/

/-- What popping a list of registers does: memory and everything but SP and the registers is kept. -/
theorem popRegs_ok {is : List (Fin 8)} {s t : State} (h : popRegs is s = .ok t) :
    t = { s with regs := t.regs, sp := s.sp + BitVec.ofNat 8 is.length } := by
  induction is generalizing s with
  | nil => simp only [popRegs, Except.ok.injEq] at h; subst h; simp
  | cons i rest ih =>
    obtain ⟨⟨v, u⟩, hp, hr⟩ := bind_eq_ok.mp h
    obtain ⟨_, rfl⟩ := pop_ok.mp hp
    have hs := ih hr
    simp only [State.setReg_mem, State.setReg_sp, State.setReg_pc, State.setReg_fl, State.setReg_im,
      State.setReg_is, State.setReg_run, State.setReg_cause, State.setReg_out, State.setSp_mem, State.setSp_sp,
      State.setSp_pc, State.setSp_fl, State.setSp_im, State.setSp_is, State.setSp_run, State.setSp_cause,
      State.setSp_out] at hs
    rw [hs]
    have hadd : s.sp + 1 + BitVec.ofNat 8 rest.length = s.sp + BitVec.ofNat 8 (i :: rest).length := by
      rw [BitVec.add_assoc]
      congr 1
      apply BitVec.eq_of_toNat_eq
      simp [Nat.add_comm]
    rw [hadd]

/-- A pop of a list of registers fails only with OutOfBounds at a byte address outside memory. -/
theorem popRegs_error {is : List (Fin 8)} {s : State} {e : Raise} (h : popRegs is s = .error e) :
    ∃ a : Byte, s.mem.size ≤ a.toNat ∧ e = { code := .outOfBounds, detail := a.toNat } := by
  induction is generalizing s with
  | nil => simp [popRegs] at h
  | cons i rest ih =>
    rcases bind_eq_error.mp h with hp | ⟨⟨v, u⟩, hp, hr⟩
    · obtain ⟨hs, rfl⟩ := pop_error.mp hp
      exact ⟨s.sp, hs, rfl⟩
    · obtain ⟨_, rfl⟩ := pop_ok.mp hp
      exact ih (s := (s.setSp (s.sp + 1)).setReg i v) hr

/-! ## Faults of the shared operations -/

theorem Effect.badRegister {i : Instr} {s : State} {b : Byte} (hi : i.wellFormed = false) :
    Effect i s (s.takeFault (some i.mnemonic.opcode) { code := .invalidRegister, detail := b.toNat }) :=
  .fault _ ⟨by simp, by simp⟩ (fun _ => hi) (by simp)

theorem Effect.badAddress {i : Instr} {s : State} {a : Byte} (h : s.mem.size ≤ a.toNat) :
    Effect i s (s.takeFault (some i.mnemonic.opcode) { code := .outOfBounds, detail := a.toNat }) :=
  .fault _ ⟨by simp, by simp⟩ (by simp) (fun _ => ⟨h, a.isLt⟩)

theorem wellFormed_of_second {i : Instr} {a b : Byte} (h : i.registerOperands = [a, b]) :
    i.wellFormed = (decide (a.toNat < 8) && decide (b.toNat < 8)) := by
  simp [Instr.wellFormed, Instr.firstRegisterLegal, Instr.secondRegisterLegal, h, namesRegister]

theorem wellFormed_of_single {i : Instr} {a : Byte} (h : i.registerOperands = [a]) :
    i.wellFormed = decide (a.toNat < 8) := by
  simp [Instr.wellFormed, Instr.firstRegisterLegal, Instr.secondRegisterLegal, h, namesRegister]

/-- An instruction of one register operand is its fault, or goes on with the register. -/
theorem unary_effect {i : Instr} {s t : State} {rA : Byte} {f : Fin 8 → Except Raise Flow}
    (hi : i.registerOperands = [rA]) (h : conclude i.mnemonic s (regOperand rA >>= f) = .next t)
    (hf : ∀ d : Fin 8, rA.toNat = d.val → conclude i.mnemonic s (f d) = .next t → Effect i s t) : Effect i s t := by
  rcases regOperand_cases rA with ⟨hA, he⟩ | ⟨hA, he⟩
  · rw [he] at h; exact hf ⟨rA.toNat, hA⟩ rfl h
  · rw [he] at h
    cases h
    exact .badRegister (by rw [wellFormed_of_single hi]; simp; omega)

/-- An instruction of two register operands is its fault, or goes on with the registers. -/
theorem binary_effect {i : Instr} {s t : State} {rA rB : Byte} {f : Fin 8 × Fin 8 → Except Raise Flow}
    (hi : i.registerOperands = [rA, rB]) (h : conclude i.mnemonic s (regOperands rA rB >>= f) = .next t)
    (hf : ∀ d e : Fin 8, rA.toNat = d.val → rB.toNat = e.val →
      conclude i.mnemonic s (f (d, e)) = .next t → Effect i s t) : Effect i s t := by
  rcases regOperands_cases rA rB with ⟨hA, hB, he⟩ | ⟨hA, he⟩ | ⟨hA, hB, he⟩
  · rw [he] at h; exact hf ⟨rA.toNat, hA⟩ ⟨rB.toNat, hB⟩ rfl rfl h
  · rw [he] at h
    cases h
    exact .badRegister (by rw [wellFormed_of_second hi]; simp; omega)
  · rw [he] at h
    cases h
    exact .badRegister (by rw [wellFormed_of_second hi]; simp; omega)

/-- What an ALU instruction other than CMP does once its operands are registers. -/
theorem alu_effect {i : Instr} {s t : State} {op : AluOp} {d e : Fin 8} {rA rB : Byte}
    (hop : op ≠ .cmp) (hother : ∀ c, op ≠ .other c) (hd : rA.toNat = d.val)
    (hi : i ∈ [.ldi rA rB, .ld rA rB, .add rA rB, .sub rA rB, .mul rA rB, .div rA rB, .inc rA, .dec rA])
    (h : conclude i.mnemonic s (aluApply op d e s) = .next t) : Effect i s t := by
  rcases aluApply_cases op d e s with ⟨v, _, he⟩ | ⟨hc, _⟩ | ⟨_, he⟩ | ⟨c, hc, _⟩
  · rw [he, conclude_advance] at h; cases h; exact .writeReg d v rA rB hd hi
  · exact absurd hc hop
  · rw [he] at h; cases h; exact .fault _ ⟨by simp, by simp⟩ (by simp) (by simp)
  · exact absurd hc (hother c)

/-- Everything the execution of an instruction can do. -/
theorem exec_effect {i : Instr} {s t : State} (h : exec i s = .next t) : Effect i s t := by
  cases i with
  | nop => simp only [exec, execNop, conclude_advance] at h; cases h; exact .nothing (.inl rfl)
  | hlt => cases h; exact .halt rfl
  | ldi rA imm8 =>
    refine unary_effect (i := .ldi rA imm8) rfl h fun d hd h => ?_
    rw [conclude_advance] at h; cases h; exact .writeReg d imm8 rA imm8 hd (by simp)
  | ld rA rB =>
    refine binary_effect (i := .ld rA rB) rfl h fun d e hd _ h => ?_
    cases hr : memRead s (s.address e) with
    | error x =>
      simp only [hr, error_bind] at h
      obtain ⟨hs, rfl⟩ := memRead_error.mp hr
      cases h; exact .badAddress hs
    | ok v => simp only [hr, ok_bind, conclude_advance] at h; cases h; exact .writeReg d v rA rB hd (by simp)
  | st rA rB =>
    refine binary_effect (i := .st rA rB) rfl h fun d e hd he h => ?_
    cases hr : memWrite s (s.address d) (s.reg e) with
    | error x =>
      simp only [hr, error_bind] at h
      obtain ⟨hs, rfl⟩ := memWrite_error.mp hr
      cases h; exact .badAddress hs
    | ok u =>
      obtain ⟨m, hm, rfl⟩ := memWrite_ok.mp hr
      simp only [hr, ok_bind, conclude_advance] at h; cases h; exact .store d e m rA rB rfl hd he hm
  | prn rA =>
    refine unary_effect (i := .prn rA) rfl h fun d _ h => ?_
    rw [conclude_advance] at h; cases h; exact .emit _ rA (.inl rfl)
  | pra rA =>
    refine unary_effect (i := .pra rA) rfl h fun d _ h => ?_
    rw [conclude_advance] at h; cases h; exact .emit _ rA (.inr rfl)
  | add rA rB => exact binary_effect (i := .add rA rB) rfl h fun d e hd _ h => alu_effect (rB := rB) (by simp) (by simp) hd (by simp) h
  | sub rA rB => exact binary_effect (i := .sub rA rB) rfl h fun d e hd _ h => alu_effect (rB := rB) (by simp) (by simp) hd (by simp) h
  | mul rA rB => exact binary_effect (i := .mul rA rB) rfl h fun d e hd _ h => alu_effect (rB := rB) (by simp) (by simp) hd (by simp) h
  | div rA rB => exact binary_effect (i := .div rA rB) rfl h fun d e hd _ h => alu_effect (rB := rB) (by simp) (by simp) hd (by simp) h
  | inc rA => exact unary_effect (i := .inc rA) rfl h fun d hd h => alu_effect (rB := 0) (by simp) (by simp) hd (by simp) h
  | dec rA => exact unary_effect (i := .dec rA) rfl h fun d hd h => alu_effect (rB := 0) (by simp) (by simp) hd (by simp) h
  | cmp rA rB =>
    refine binary_effect (i := .cmp rA rB) rfl h fun d e _ _ h => ?_
    simp only [aluApply, alu, conclude_advance] at h; cases h; exact .compare _ _ rA rB rfl
  | push rA =>
    refine unary_effect (i := .push rA) rfl h fun d hd h => ?_
    cases hr : push s (s.reg d) with
    | error x =>
      simp only [hr, error_bind] at h
      obtain ⟨hs, rfl⟩ := push_error.mp hr
      cases h; exact .badAddress hs
    | ok u =>
      obtain ⟨m, hm, rfl⟩ := push_ok.mp hr
      simp only [hr, ok_bind, conclude_advance] at h; cases h; exact .push d m rA rfl hd hm
  | pop rA =>
    refine unary_effect (i := .pop rA) rfl h fun d hd h => ?_
    cases hr : pop s with
    | error x =>
      simp only [hr, error_bind] at h
      obtain ⟨hs, rfl⟩ := pop_error.mp hr
      cases h; exact .badAddress hs
    | ok p =>
      obtain ⟨v, u⟩ := p
      obtain ⟨hv, rfl⟩ := pop_ok.mp hr
      simp only [hr, ok_bind, conclude_advance] at h; cases h; exact .pop d v rA rfl hd hv
  | call rA =>
    refine unary_effect (i := .call rA) rfl h fun d hd h => ?_
    have hpc : narrow (s.pc.toNat + Mnemonic.call.length) = s.pc + 2 := narrow_toNat_add s.pc 2
    cases hr : push s (s.pc + 2) with
    | error x =>
      simp only [hpc, hr, error_bind] at h
      obtain ⟨hs, rfl⟩ := push_error.mp hr
      cases h; exact .badAddress hs
    | ok u =>
      obtain ⟨m, hm, rfl⟩ := push_ok.mp hr
      simp only [hpc, hr, ok_bind] at h; cases h; exact .call d m rA rfl hd hm
  | ret =>
    simp only [exec, execRet] at h
    cases hr : pop s with
    | error x =>
      simp only [hr, error_bind] at h
      obtain ⟨hs, rfl⟩ := pop_error.mp hr
      cases h; exact .badAddress hs
    | ok p =>
      obtain ⟨v, u⟩ := p
      obtain ⟨hv, rfl⟩ := pop_ok.mp hr
      simp only [hr, ok_bind] at h; cases h; exact .ret v rfl hv
  | jmp rA =>
    refine unary_effect (i := .jmp rA) rfl h fun d _ h => ?_
    cases h; exact .jump _ (.inl ⟨rA, rfl⟩)
  | jeq rA =>
    refine unary_effect (i := .jeq rA) rfl h fun d _ h => ?_
    cases hf : getFlag s.fl flagE with
    | true => simp only [hf, if_true] at h; cases h; exact .jump _ (.inr (.inl ⟨rA, rfl, hf⟩))
    | false =>
      simp only [hf, Bool.false_eq_true, if_false, conclude_advance] at h
      cases h; exact .nothing (.inr (.inl ⟨rA, rfl, hf⟩))
  | jne rA =>
    refine unary_effect (i := .jne rA) rfl h fun d _ h => ?_
    cases hf : getFlag s.fl flagE with
    | false => simp only [hf, Bool.not_false, if_true] at h; cases h; exact .jump _ (.inr (.inr ⟨rA, rfl, hf⟩))
    | true =>
      simp only [hf, Bool.not_true, Bool.false_eq_true, if_false, conclude_advance] at h
      cases h; exact .nothing (.inr (.inr ⟨rA, rfl, hf⟩))
  | int rA =>
    refine unary_effect (i := .int rA) rfl h fun d _ h => ?_
    by_cases hn : (s.reg d).toNat < 8
    · simp only [if_pos hn, conclude_advance] at h; cases h; exact .raiseLine _ rA rfl hn
    · simp only [if_neg hn] at h; cases h; exact .fault _ ⟨by simp, by simp⟩ (by simp) (by simp)
  | iret =>
    simp only [exec, execIret] at h
    cases hr : popRegs iretOrder s with
    | error x =>
      simp only [hr, error_bind] at h
      obtain ⟨a, hs, rfl⟩ := popRegs_error hr
      cases h; exact .badAddress hs
    | ok u =>
      have hu := popRegs_ok hr
      simp only [hr, ok_bind] at h
      cases hp : pop u with
      | error x =>
        simp only [hp, error_bind] at h
        obtain ⟨hs, rfl⟩ := pop_error.mp hp
        rw [congrArg State.mem hu] at hs
        cases h; exact .badAddress hs
      | ok p =>
        obtain ⟨v, w⟩ := p
        obtain ⟨_, rfl⟩ := pop_ok.mp hp
        simp only [hp, ok_bind] at h
        cases h
        have hsp : (u.setSp (u.sp + 1)).setPc v = { s with regs := u.regs, pc := v, sp := s.sp + 9 } := by
          rw [hu]
          simp only [State.setSp, State.setPc, iretOrder, State.mk.injEq, true_and, and_true]
          rw [BitVec.add_assoc]
          rfl
        rw [hsp]
        exact .iret u.regs v rfl

/-- Every instruction answers a next state: no meaning faults or refuses. -/
theorem conclude_next (m : Mnemonic) (s : State) (r : Except Raise Flow) : ∃ t, conclude m s r = .next t := by
  match r with
  | .error e => exact ⟨_, rfl⟩
  | .ok .halt => exact ⟨_, rfl⟩
  | .ok (.advance u) => exact ⟨_, rfl⟩
  | .ok (.redirect u) => exact ⟨_, rfl⟩

/-! ## The tick -/

/-- Everything a tick can do: nothing, a fault of the fetch, or an instruction whose encoding lies at PC. -/
theorem step_cases {s t : State} (h : step s = .next t) :
    (s.run = .halted ∧ t = s) ∨
    (s.run = .running ∧ s.mem.size ≤ s.pc.toNat ∧ t = faulted s .outOfBounds none s.pc.toNat) ∨
    (∃ op, s.run = .running ∧ s.mem.read s.pc.toNat = some op ∧ opcodeLookup op = none ∧
      t = faulted s .unknownInstruction (some op) op.toNat) ∨
    (∃ (m : Mnemonic) (k : Nat), s.run = .running ∧ s.mem.read s.pc.toNat = some m.opcode ∧ 1 ≤ k ∧ k ≤ 2 ∧
      s.mem.size ≤ s.pc.toNat + k ∧ t = faulted s .outOfBounds (some m.opcode) (s.pc.toNat + k)) ∨
    (∃ i, s.run = .running ∧ (∀ k < (encode i).length, s.mem.read (s.pc.toNat + k) = (encode i)[k]?) ∧
      exec i s = .next t) := by
  simp only [step, tick] at h
  cases hrun : s.run with
  | halted => rw [hrun] at h; cases h; exact .inl ⟨rfl, rfl⟩
  | running =>
    rw [hrun] at h
    refine .inr ?_
    rcases decodeWith_cases (fun k => s.mem.read (s.pc.toNat + k)) with
      ⟨h0, hd⟩ | ⟨op, h0, hl, hd⟩ | ⟨m, h0, _, h1, hd⟩ | ⟨m, h0, _, _, h2, hd⟩ | ⟨i, hi, hd⟩
    · simp only [fetch, hd] at h; cases h
      exact .inl ⟨rfl, Memory.read_eq_none.mp h0, rfl⟩
    · simp only [fetch, hd] at h; cases h
      exact .inr (.inl ⟨op, rfl, h0, hl, rfl⟩)
    · simp only [fetch, hd] at h; cases h
      exact .inr (.inr (.inl ⟨m, 1, rfl, h0, by omega, by omega, Memory.read_eq_none.mp h1, rfl⟩))
    · simp only [fetch, hd] at h; cases h
      exact .inr (.inr (.inl ⟨m, 2, rfl, h0, by omega, by omega, Memory.read_eq_none.mp h2, rfl⟩))
    · simp only [fetch, hd] at h
      exact .inr (.inr (.inr ⟨i, rfl, hi, h⟩))

end Sys2Proof.Machine
end

