-- ==== Sys2Proof/Laws/Output.lean ====
section
/-!
SUPPORT. The digits of PRN's numeral (R122).
-/

namespace Sys2Proof.Machine

theorem digit_toNat {d : Nat} (h : d < 10) : (digit d).toNat = 0x30 + d := by
  simp only [digit, BitVec.toNat_ofNat]
  omega

/-- The three lengths of a numeral. -/
theorem decimal_cases (v : Byte) :
    (v.toNat < 10 ∧ decimal v = [digit v.toNat]) ∨
    (10 ≤ v.toNat ∧ v.toNat < 100 ∧ decimal v = [digit (v.toNat / 10), digit (v.toNat % 10)]) ∨
    (100 ≤ v.toNat ∧
      decimal v = [digit (v.toNat / 100), digit (v.toNat / 10 % 10), digit (v.toNat % 10)]) := by
  rcases Nat.lt_or_ge v.toNat 10 with h | h
  · refine .inl ⟨h, ?_⟩
    simp only [decimal, if_neg (show ¬ 100 ≤ v.toNat by omega), if_neg (show ¬ 10 ≤ v.toNat by omega),
      List.nil_append, Nat.mod_eq_of_lt h]
  · rcases Nat.lt_or_ge v.toNat 100 with h' | h'
    · refine .inr (.inl ⟨h, h', ?_⟩)
      simp only [decimal, if_neg (show ¬ 100 ≤ v.toNat by omega), if_pos h, List.nil_append, List.cons_append,
        Nat.mod_eq_of_lt (show v.toNat / 10 < 10 by omega)]
    · refine .inr (.inr ⟨h', ?_⟩)
      simp only [decimal, if_pos h', if_pos h, List.nil_append, List.cons_append]

end Sys2Proof.Machine
end

