-- ==== Sys2Proof/Laws/PerInstr.lean ====
section
/-!
SUPPORT. Statements made per instruction, one lemma per constructor of Instr.
-/

namespace Sys2Proof.Laws

/-- The length of an instruction's encoding is what its opcode byte encodes, bits 7:6 plus one, and at
most three bytes (R70, R90). -/
def EncodedLength.Statement (i : Instr) : Prop :=
  ∃ op rest, encode i = op :: rest ∧ (encode i).length = opcodeLength op ∧ (encode i).length ≤ 3

theorem EncodedLength.nop : EncodedLength.Statement .nop :=
  ⟨_, _, rfl, by simp only [encode, Instr.operands, Instr.mnemonic, List.length]; decide, by simp [encode, Instr.operands]⟩

theorem EncodedLength.hlt : EncodedLength.Statement .hlt :=
  ⟨_, _, rfl, by simp only [encode, Instr.operands, Instr.mnemonic, List.length]; decide, by simp [encode, Instr.operands]⟩

theorem EncodedLength.ret : EncodedLength.Statement .ret :=
  ⟨_, _, rfl, by simp only [encode, Instr.operands, Instr.mnemonic, List.length]; decide, by simp [encode, Instr.operands]⟩

theorem EncodedLength.iret : EncodedLength.Statement .iret :=
  ⟨_, _, rfl, by simp only [encode, Instr.operands, Instr.mnemonic, List.length]; decide, by simp [encode, Instr.operands]⟩

theorem EncodedLength.push (rA : Byte) : EncodedLength.Statement (.push rA) :=
  ⟨_, _, rfl, by simp only [encode, Instr.operands, Instr.mnemonic, List.length]; decide, by simp [encode, Instr.operands]⟩

theorem EncodedLength.pop (rA : Byte) : EncodedLength.Statement (.pop rA) :=
  ⟨_, _, rfl, by simp only [encode, Instr.operands, Instr.mnemonic, List.length]; decide, by simp [encode, Instr.operands]⟩

theorem EncodedLength.prn (rA : Byte) : EncodedLength.Statement (.prn rA) :=
  ⟨_, _, rfl, by simp only [encode, Instr.operands, Instr.mnemonic, List.length]; decide, by simp [encode, Instr.operands]⟩

theorem EncodedLength.pra (rA : Byte) : EncodedLength.Statement (.pra rA) :=
  ⟨_, _, rfl, by simp only [encode, Instr.operands, Instr.mnemonic, List.length]; decide, by simp [encode, Instr.operands]⟩

theorem EncodedLength.call (rA : Byte) : EncodedLength.Statement (.call rA) :=
  ⟨_, _, rfl, by simp only [encode, Instr.operands, Instr.mnemonic, List.length]; decide, by simp [encode, Instr.operands]⟩

theorem EncodedLength.int (rA : Byte) : EncodedLength.Statement (.int rA) :=
  ⟨_, _, rfl, by simp only [encode, Instr.operands, Instr.mnemonic, List.length]; decide, by simp [encode, Instr.operands]⟩

theorem EncodedLength.jmp (rA : Byte) : EncodedLength.Statement (.jmp rA) :=
  ⟨_, _, rfl, by simp only [encode, Instr.operands, Instr.mnemonic, List.length]; decide, by simp [encode, Instr.operands]⟩

theorem EncodedLength.jeq (rA : Byte) : EncodedLength.Statement (.jeq rA) :=
  ⟨_, _, rfl, by simp only [encode, Instr.operands, Instr.mnemonic, List.length]; decide, by simp [encode, Instr.operands]⟩

theorem EncodedLength.jne (rA : Byte) : EncodedLength.Statement (.jne rA) :=
  ⟨_, _, rfl, by simp only [encode, Instr.operands, Instr.mnemonic, List.length]; decide, by simp [encode, Instr.operands]⟩

theorem EncodedLength.inc (rA : Byte) : EncodedLength.Statement (.inc rA) :=
  ⟨_, _, rfl, by simp only [encode, Instr.operands, Instr.mnemonic, List.length]; decide, by simp [encode, Instr.operands]⟩

theorem EncodedLength.dec (rA : Byte) : EncodedLength.Statement (.dec rA) :=
  ⟨_, _, rfl, by simp only [encode, Instr.operands, Instr.mnemonic, List.length]; decide, by simp [encode, Instr.operands]⟩

theorem EncodedLength.ldi (rA imm8 : Byte) : EncodedLength.Statement (.ldi rA imm8) :=
  ⟨_, _, rfl, by simp only [encode, Instr.operands, Instr.mnemonic, List.length]; decide, by simp [encode, Instr.operands]⟩

theorem EncodedLength.ld (rA rB : Byte) : EncodedLength.Statement (.ld rA rB) :=
  ⟨_, _, rfl, by simp only [encode, Instr.operands, Instr.mnemonic, List.length]; decide, by simp [encode, Instr.operands]⟩

theorem EncodedLength.st (rA rB : Byte) : EncodedLength.Statement (.st rA rB) :=
  ⟨_, _, rfl, by simp only [encode, Instr.operands, Instr.mnemonic, List.length]; decide, by simp [encode, Instr.operands]⟩

theorem EncodedLength.add (rA rB : Byte) : EncodedLength.Statement (.add rA rB) :=
  ⟨_, _, rfl, by simp only [encode, Instr.operands, Instr.mnemonic, List.length]; decide, by simp [encode, Instr.operands]⟩

theorem EncodedLength.sub (rA rB : Byte) : EncodedLength.Statement (.sub rA rB) :=
  ⟨_, _, rfl, by simp only [encode, Instr.operands, Instr.mnemonic, List.length]; decide, by simp [encode, Instr.operands]⟩

theorem EncodedLength.mul (rA rB : Byte) : EncodedLength.Statement (.mul rA rB) :=
  ⟨_, _, rfl, by simp only [encode, Instr.operands, Instr.mnemonic, List.length]; decide, by simp [encode, Instr.operands]⟩

theorem EncodedLength.div (rA rB : Byte) : EncodedLength.Statement (.div rA rB) :=
  ⟨_, _, rfl, by simp only [encode, Instr.operands, Instr.mnemonic, List.length]; decide, by simp [encode, Instr.operands]⟩

theorem EncodedLength.cmp (rA rB : Byte) : EncodedLength.Statement (.cmp rA rB) :=
  ⟨_, _, rfl, by simp only [encode, Instr.operands, Instr.mnemonic, List.length]; decide, by simp [encode, Instr.operands]⟩

end Sys2Proof.Laws
end

