-- ==== Sys2Proof/Tests/Slice0.lean ====
section
/-!
SUPPORT. Tests of the model against the spec, and a witness for the hypotheses of every statement. Expected
values are those of spec/95_test_vectors.md, named by their vector, or are worked out by hand from the rule cited.
-/

namespace Sys2Proof.Tests

open Sys2Proof.Machine

/-! ## Helpers -/

/-- The reset machine with bytes stored at `a` and PC there. -/
def start (bs : List Byte) (a : Byte) : State := placeAtPc (State.reset.setPc a) bs

/-- The machine with one byte of memory replaced. -/
def poke (s : State) (a : Nat) (b : Byte) : State := s.setMem ((s.mem.write a b).getD s.mem)

/-- The reset machine with 128 bytes of memory, so that register addresses can be out of bounds. -/
def small : State := State.reset.setMem { size := 128, cells := [] }

/-- The state after one step, if there is one. -/
def after (s : State) : Option State := nextState? (step s)

/-- The state after one instruction's meaning, if there is one. -/
def done (i : Instr) (s : State) : Option State := nextState? (exec i s)

theorem next_of_nextState {o : Host.Outcome State Fault Refusal} {t : State} (h : nextState? o = some t) :
    o = .next t := by
  cases o with
  | next u => simpa [nextState?] using h
  | fault r => cases r
  | refused r => simp [nextState?] at h

theorem exists_next {o : Host.Outcome State Fault Refusal} (h : (nextState? o).isSome = true) :
    ∃ t, o = .next t := (Option.isSome_iff_exists.mp h).imp fun _ => next_of_nextState

/-! ## Well-formed instructions -/

theorem test_legal_operands_are_accepted :
    ∀ i ∈ [Instr.nop, .hlt, .ret, .iret, .push 7, .pop 0, .prn 7, .pra 0, .call 7, .int 0, .jmp 7, .jeq 0, .jne 7,
      .inc 0, .dec 7, .ldi 7 0xFF, .ld 7 7, .st 0 7, .add 7 0, .sub 0 0, .mul 7 7, .div 0 7, .cmp 7 0],
      i.wellFormed = true := by decide

theorem test_first_register_of_eight_or_more_is_refused :
    ∀ i ∈ [Instr.push 8, .pop 8, .prn 8, .pra 8, .call 8, .int 8, .jmp 8, .jeq 8, .jne 255, .inc 8, .dec 8,
      .ldi 8 0, .ld 8 0, .st 8 0, .add 8 0, .sub 8 0, .mul 8 0, .div 8 0, .cmp 200 0],
      i.firstRegisterLegal = false ∧ i.wellFormed = false := by decide

theorem test_second_register_of_eight_or_more_is_refused :
    ∀ i ∈ [Instr.ld 0 8, .st 0 8, .add 0 8, .sub 0 8, .mul 0 8, .div 0 8, .cmp 0 255],
      i.secondRegisterLegal = false ∧ i.wellFormed = false := by decide

/-! ## Decoding: words written out from the opcode map (R75) and the formats (R71 to R74) -/

theorem test_decode_system :
    decode [0b00000000] = .ok (.nop, []) ∧ decode [0b00000001] = .ok (.hlt, []) := by decide

theorem test_decode_load_store :
    decode [0b10000010, 0b00000011, 0b11111111] = .ok (.ldi 3 0xFF, []) ∧
    decode [0b10000011, 0b00000010, 0b00000101] = .ok (.ld 2 5, []) ∧
    decode [0b10000100, 0b00000001, 0b00000110] = .ok (.st 1 6, []) := by decide

theorem test_decode_output :
    decode [0b01000111, 0b00000011] = .ok (.prn 3, []) ∧
    decode [0b01001000, 0b00000001] = .ok (.pra 1, []) := by decide

theorem test_decode_alu_of_two_registers :
    decode [0b10100000, 0b00000000, 0b00000001] = .ok (.add 0 1, []) ∧
    decode [0b10100001, 0b00000011, 0b00000010] = .ok (.sub 3 2, []) ∧
    decode [0b10100010, 0b00000101, 0b00000110] = .ok (.mul 5 6, []) ∧
    decode [0b10100011, 0b00000010, 0b00000011] = .ok (.div 2 3, []) ∧
    decode [0b10100111, 0b00000100, 0b00000111] = .ok (.cmp 4 7, []) := by decide

theorem test_decode_alu_of_one_register :
    decode [0b01100101, 0b00000100] = .ok (.inc 4, []) ∧
    decode [0b01100110, 0b00000110] = .ok (.dec 6, []) := by decide

theorem test_decode_stack :
    decode [0b01000101, 0b00000101] = .ok (.push 5, []) ∧
    decode [0b01000110, 0b00000010] = .ok (.pop 2, []) := by decide

theorem test_decode_control :
    decode [0b01010000, 0b00000001] = .ok (.call 1, []) ∧ decode [0b00010001] = .ok (.ret, []) ∧
    decode [0b01010100, 0b00000111] = .ok (.jmp 7, []) ∧ decode [0b01010101, 0b00000010] = .ok (.jeq 2, []) ∧
    decode [0b01010110, 0b00000011] = .ok (.jne 3, []) := by decide

theorem test_decode_interrupt :
    decode [0b01010010, 0b00000100] = .ok (.int 4, []) ∧ decode [0b00010011] = .ok (.iret, []) := by decide

/-- The register operand is the whole byte, never masked (R76), and the rest of the bytes is given back. -/
theorem test_decode_keeps_the_whole_operand_byte :
    decode [0b10100000, 0b11001000, 0b00001000, 0x99] = .ok (.add 200 8, [0x99]) := by decide

/-- R81: an unknown opcode is rejected before its operands are looked at; R80: a missing byte is named. -/
theorem test_decode_rejects_by_name :
    decode [0x02] = .error (.unknownOpcode 0x02) ∧ decode [0xC0] = .error (.unknownOpcode 0xC0) ∧
    decode [0xA4, 0, 0] = .error (.unknownOpcode 0xA4) ∧ decode [] = .error .noOpcode ∧
    decode [0x47] = .error (.noOperand 0x47 1) ∧ decode [0x82, 0x00] = .error (.noOperand 0x82 2) := by decide

/-- Bit 0 of a table word is bit 0 of the first byte; bits above `nbits` are 0. -/
theorem test_table_words :
    decodeTableWord 24 0xFF0382 = some (.ldi 3 0xFF) ∧ decodeTableWord 16 0x0547 = some (.prn 5) ∧
    decodeTableWord 8 0x13 = some .iret ∧ decodeTableWord 8 0x0547 = some (.prn 0) ∧
    decodeTableWord 8 0x02 = none := by decide

/-- The step after `withFetchWord` runs the word, from reset and from a halted machine elsewhere in memory. -/
theorem test_withFetchWord_is_run :
    (after (State.reset.withFetchWord 24 0x2A0782)).map (fun t => (t.reg 7, t.pc)) = some (0x2A, 0x03) ∧
    (after (((State.reset.setPc 0x40).halt ⟨.hlt, 0x40, none, none⟩).withFetchWord 8 0x00)).map (·.pc) =
      some 0x41 := by decide

/-! ## The assembler syntax (R91) -/

theorem test_assemble :
    assemble ['L', 'D', 'I', ' ', 'R', '0', ',', '8'] = some (.ldi 0 8) ∧
    assemble ['L', 'D', 'I', ' ', 'R', '7', ',', ' ', '0', 'x', 'f', 'F'] = some (.ldi 7 0xFF) ∧
    assemble ['L', 'D', 'I', ' ', 'R', '7', ',', ' ', '0', 'b', '1', '0', '1'] = some (.ldi 7 5) ∧
    assemble ['M', 'U', 'L', ' ', 'R', '0', ',', 'R', '1'] = some (.mul 0 1) ∧
    assemble ['I', 'R', 'E', 'T'] = some .iret := by decide

theorem test_assemble_refuses :
    assemble ['L', 'D', 'I', ' ', 'R', '0', ',', '2', '5', '6'] = none ∧
    assemble ['I', 'N', 'C', ' ', 'R', '8'] = none ∧ assemble ['I', 'N', 'C'] = none ∧
    assemble ['D', 'S', ' ', '1'] = none ∧ assemble ['N', 'O', 'P', ' ', 'R', '1'] = none := by decide

/-! ## The tick -/

/-- T5: the fault, with nothing else changed. -/
theorem test_unknown_opcode_at_the_top :
    let s := start [0xFF] 0xFF
    after s = some (faulted s .unknownInstruction (some 0xFF) 0xFF) := by decide

/-- T6: the fault, with nothing else changed. -/
theorem test_operand_fetch_does_not_wrap :
    let s := start [0x82, 0x00] 0xFE
    after s = some (faulted s .outOfBounds (some 0x82) 0x100) := by decide

/-- T8: the fault, with nothing else changed. -/
theorem test_register_check_before_division :
    let s := start [0xA3, 0x09, 0x01] 0
    after s = some (faulted s .invalidRegister (some 0xA3) 9) := by decide

/-! ## One step of each instruction -/

/-- T10. -/
theorem test_hlt :
    (after (start [0x01] 0xFF)).map (fun t => (t.run, t.cause, t.pc)) =
      some (.halted, some ⟨.hlt, 0xFF, some 0x01, none⟩, 0xFF) := by decide

/-- R84 (NOP at the last byte, PC wraps). -/
theorem test_nop :
    (after (start [0x00] 0xFF)).map (fun t => (t.pc, t.run)) =
      some (0x00, .running) := by decide

/-- T11. -/
theorem test_ldi :
    (after (start [0x82, 0x00, 0x05] 0xFD)).map (fun t => (t.reg 0, t.pc)) =
      some (0x05, 0x00) := by decide

/-- L2: the fault, with nothing else changed. -/
theorem test_ldi_illegal_register :
    let s := start [0x82, 0x08, 0x01] 0
    after s = some (faulted s .invalidRegister (some 0x82) 8) := by decide

/-- L4. -/
theorem test_ld :
    (after (poke ((start [0x83, 0x02, 0x02] 0).setReg 2 0x10) 0x10 0x77)).map (fun t => (t.reg 2, t.pc)) =
      some (0x77, 0x03) := by decide

/-- T9: the fault, with nothing else changed. -/
theorem test_ld_out_of_bounds :
    let s := ((start [0x83, 0x00, 0x01] 0).setMem (placeBytes ⟨128, []⟩ 0 [0x83, 0x00, 0x01])).setReg 1 0x80
    after s = some (faulted s .outOfBounds (some 0x83) 0x80) := by decide

/-- L6. -/
theorem test_st :
    (after (((start [0x84, 0x00, 0x01] 0).setReg 0 0x80).setReg 1 0x48)).map (fun t => (t.mem.read 0x80, t.pc)) =
      some (some 0x48, 0x03) := by decide

/-- L8. -/
theorem test_st_onto_itself :
    (after (((start [0x84, 0x00, 0x01] 0).setReg 0 0x00).setReg 1 0x01)).map (fun t => (t.mem.read 0, t.pc)) =
      some (some 0x01, 0x03) := by decide

/-- O3. -/
theorem test_prn_255 :
    (after ((start [0x47, 0x00] 0).setReg 0 0xFF)).map (fun t => (t.out, t.pc)) =
      some ([0x32, 0x35, 0x35, 0x0A], 0x02) := by decide

/-- O2. -/
theorem test_prn_0 :
    (after (start [0x47, 0x00] 0)).map (fun t => t.out) =
      some [0x30, 0x0A] := by decide

/-- O4. -/
theorem test_pra :
    (after ((start [0x48, 0x02] 0).setReg 2 0x48)).map (fun t => (t.out, t.pc)) =
      some ([0x48], 0x02) := by decide

/-- O6. -/
theorem test_pra_zero :
    (after (start [0x48, 0x02] 0)).map (fun t => t.out) =
      some [0x00] := by decide

/-- A2. -/
theorem test_add_wraps :
    (after ((((start [0xA0, 0x00, 0x01] 0).setReg 0 0xFF).setReg 1 0x01).setFl 0x04)).map (fun t => (t.reg 0, t.fl, t.pc)) =
      some (0x00, 0x04, 0x03) := by decide

/-- A4. -/
theorem test_add_same_register :
    (after ((start [0xA0, 0x00, 0x00] 0).setReg 0 0x80)).map (fun t => t.reg 0) =
      some 0x00 := by decide

/-- A5. -/
theorem test_sub_borrows :
    (after (((start [0xA1, 0x03, 0x02] 0).setReg 3 0x07).setReg 2 0x0A)).map (fun t => (t.reg 3, t.reg 2, t.pc)) =
      some (0xFD, 0x0A, 0x03) := by decide

/-- A10. -/
theorem test_mul_wraps :
    (after (((start [0xA2, 0x00, 0x01] 0).setReg 0 0xFF).setReg 1 0xFF)).map (fun t => (t.reg 0, t.reg 1, t.pc)) =
      some (0x01, 0xFF, 0x03) := by decide

/-- A12. -/
theorem test_div_truncates :
    (after (((start [0xA3, 0x02, 0x03] 0).setReg 2 0x48).setReg 3 0x07)).map (fun t => (t.reg 2, t.pc)) =
      some (0x0A, 0x03) := by decide

/-- A16: the fault, with nothing else changed. -/
theorem test_div_by_zero :
    let s := (start [0xA3, 0x00, 0x01] 0).setReg 0 0x09
    after s = some (faulted s .divideByZero (some 0xA3) 1) := by decide

/-- A19. -/
theorem test_inc_wraps :
    (after ((start [0x65, 0x04] 0).setReg 4 0xFF)).map (fun t => (t.reg 4, t.pc)) =
      some (0x00, 0x02) := by decide

/-- A21. -/
theorem test_dec_wraps :
    (after (start [0x66, 0x00] 0)).map (fun t => (t.reg 0, t.pc)) =
      some (0xFF, 0x02) := by decide

/-- A25. -/
theorem test_cmp_less :
    (after (((start [0xA7, 0x00, 0x01] 0).setReg 0 0x00).setReg 1 0xFF)).map (fun t => (t.fl, t.pc)) =
      some (0x04, 0x03) := by decide

/-- A26. -/
theorem test_cmp_greater_clears_equal :
    (after ((((start [0xA7, 0x00, 0x01] 0).setReg 0 0xFF).setReg 1 0x00).setFl 0x01)).map (fun t => (t.fl, t.reg 0)) =
      some (0x02, 0xFF) := by decide

/-- S2. -/
theorem test_push_wraps :
    (after (((start [0x45, 0x00] 0).setReg 0 0x66).setSp 0x00)).map (fun t => (t.sp, t.mem.read 0xFF, t.pc)) =
      some (0xFF, some 0x66, 0x02) := by decide

/-- S3: the fault, with nothing else changed. -/
theorem test_push_illegal_register :
    let s := start [0x45, 0x08] 0
    after s = some (faulted s .invalidRegister (some 0x45) 8) := by decide

/-- S6. -/
theorem test_pop_wraps :
    (after (poke ((start [0x46, 0x00] 0).setSp 0xFF) 0xFF 0xAB)).map (fun t => (t.reg 0, t.sp, t.pc)) =
      some (0xAB, 0x00, 0x02) := by decide

/-- S5. -/
theorem test_pop_empty_stack :
    (after ((start [0x46, 0x00] 0).setReg 0 0x11)).map (fun t => (t.reg 0, t.sp)) =
      some (0x00, 0xF5) := by decide

/-- C1. -/
theorem test_call :
    (after ((start [0x50, 0x01] 0x06).setReg 1 0x0B)).map (fun t => (t.sp, t.mem.read 0xF3, t.pc)) =
      some (0xF3, some 0x08, 0x0B) := by decide

/-- C2. -/
theorem test_call_return_address_wraps :
    (after ((start [0x50, 0x01] 0xFE).setReg 1 0x20)).map (fun t => (t.sp, t.mem.read 0xF3, t.pc)) =
      some (0xF3, some 0x00, 0x20) := by decide

/-- C3. -/
theorem test_ret :
    (after (poke ((start [0x11] 0).setSp 0xF3) 0xF3 0x08)).map (fun t => (t.sp, t.pc)) =
      some (0xF4, 0x08) := by decide

/-- C6. -/
theorem test_jmp :
    (after ((start [0x54, 0x02] 0x40).setReg 2 0x40)).map (fun t => (t.pc, t.run)) =
      some (0x40, .running) := by decide

/-- C7. -/
theorem test_jeq_taken :
    (after (((start [0x55, 0x02] 0).setReg 2 0x20).setFl 0x01)).map (fun t => t.pc) =
      some 0x20 := by decide

/-- C10: the fault, with nothing else changed. -/
theorem test_jeq_checks_its_operand_when_not_taken :
    let s := start [0x55, 0x08] 0
    after s = some (faulted s .invalidRegister (some 0x55) 8) := by decide

/-- C11. -/
theorem test_jne_taken :
    (after (((start [0x56, 0x02] 0).setReg 2 0x09).setFl 0x02)).map (fun t => t.pc) =
      some 0x09 := by decide

/-- C12. -/
theorem test_jne_not_taken :
    (after (((start [0x56, 0x02] 0).setReg 2 0x09).setFl 0x01)).map (fun t => t.pc) =
      some 0x02 := by decide

/-- I2. -/
theorem test_int :
    (after (((start [0x52, 0x00] 0).setReg 0 0x07).setIs 0x08)).map (fun t => (t.is, t.pc)) =
      some (0x88, 0x02) := by decide

/-- I4: the fault, with nothing else changed. -/
theorem test_int_line_eight :
    let s := (start [0x52, 0x00] 0).setReg 0 0x08
    after s = some (faulted s .invalidInterruptLine (some 0x52) 8) := by decide

/-- I5. -/
theorem test_iret :
    (after (List.foldl (fun s c => poke s c.1 c.2) ((start [0x13] 0x50).setSp 0xEB)
      [(0xEB, 0x11), (0xEC, 0x10), (0xED, 0x0F), (0xEE, 0x0E), (0xEF, 0x0D), (0xF0, 0x0C), (0xF1, 0x0B),
        (0xF2, 0x0A), (0xF3, 0x30)])).map (fun t => (t.regs.toList, t.sp, t.pc, t.fl)) =
      some ([0x0A, 0x0B, 0x0C, 0x0D, 0x0E, 0x0F, 0x10, 0x11], 0xF4, 0x30, 0x00) := by decide

/-- I6. -/
theorem test_iret_wraps :
    (after ((start [0x13] 0).setSp 0xFC)).map (fun t => (t.regs.toList, t.sp, t.pc)) =
      some ([0, 0, 0, 0x13, 0, 0, 0, 0], 0x05, 0x00) := by decide

/-! ## Witnesses: states and operands that meet the hypotheses of each statement, clause by clause -/

theorem witness_MemoryReadAndWriteContracts :
    State.reset.mem.size ≤ 256 ∧ 255 < State.reset.mem.size ∧ small.mem.size ≤ 128 := by decide

theorem witness_LaterLoadReplacesEarlier :
    (∀ x ∈ [((0x30 : Nat), (7 : Byte))], x.1 ≠ 0x20) ∧
    (∃ t, State.reset.loadAll ([(0x10, 1)] ++ [(0x20, 5)] ++ [(0x10, 2), (0x20, 3)] ++ [(0x20, 6)] ++ [(0x30, 7)]) =
      .next t) ∧
    (∀ x ∈ [((0xFF : Nat), (7 : Byte))], x.1 < State.reset.mem.size) ∧ State.reset.mem.size ≤ 256 :=
  ⟨by decide, ⟨_, rfl⟩, by decide, by decide⟩

/-- The last legal and the first illegal operand byte, for the statements whose clauses are these two. -/
theorem witness_LdiLoadsItsImmediate : (7 : Byte).toNat < 8 ∧ 7 < (8 : Byte).toNat := by decide

theorem witness_PrnEmitsNumeralAndLineFeed : (7 : Byte).toNat < 8 ∧ 7 < (8 : Byte).toNat := by decide

theorem witness_PraEmitsTheRegisterByte : (7 : Byte).toNat < 8 ∧ 7 < (8 : Byte).toNat := by decide

theorem witness_IncAndDecModulo256 : (7 : Byte).toNat < 8 ∧ 7 < (8 : Byte).toNat := by decide

theorem witness_JmpGoesToTheRegister : (7 : Byte).toNat < 8 ∧ 7 < (8 : Byte).toNat := by decide

theorem witness_LdLoadsFromTheAddressInRb :
    (7 : Byte).toNat < 8 ∧ 7 < (8 : Byte).toNat ∧
    (let s := State.reset.setReg 7 0xFF; s.mem.read (s.reg 7).toNat = some 0x00) ∧
    (let s := small.setReg 7 0x80; s.mem.size ≤ (s.reg 7).toNat) := by decide

theorem witness_StStoresAtTheAddressInRa :
    (7 : Byte).toNat < 8 ∧ 7 < (8 : Byte).toNat ∧
    (let s := State.reset.setReg 7 0xFF; (s.reg 7).toNat < s.mem.size) ∧
    (let s := small.setReg 7 0x80; s.mem.size ≤ (s.reg 7).toNat) := by decide

theorem witness_DecimalNumeralDenotesTheByte : (0x32 : Byte) ∈ decimal 200 ∧ (200 : Byte) ≠ 0 := by decide

theorem witness_AluLawsOnUnsignedBytes :
    (255 : Byte) ≠ 0 ∧ (1 : Byte) = 1 ∧ (0 : Byte).toNat < (255 : Byte).toNat := by decide

theorem witness_AddSubMulResultsModulo256 : (7 : Byte).toNat < 8 ∧ 7 < (8 : Byte).toNat := by decide

theorem witness_DivTruncatesOrHaltsOnZero :
    (7 : Byte).toNat < 8 ∧ 7 < (8 : Byte).toNat ∧ (State.reset.setReg 7 1).reg 7 ≠ 0 ∧ State.reset.reg 7 = 0 := by
  decide

theorem witness_CmpSetsFlagsUnsigned : (7 : Byte).toNat < 8 ∧ 7 < (8 : Byte).toNat := by decide

theorem witness_CmpLeavesExactlyOneFlag :
    (State.reset.setFl 0x07).fl &&& 0xF8 = 0 ∧ (7 : Byte).toNat < 8 ∧ (0 : Byte).toNat < 8 := by decide

/-- The slot at the top of 256 bytes, the last of 128 bytes, and the first outside them. -/
theorem witness_PushDecrementsSpAndStores :
    (7 : Byte).toNat < 8 ∧ 7 < (8 : Byte).toNat ∧
    (let s := State.reset.setSp 0x00; (s.sp - 1).toNat < s.mem.size) ∧
    (let s := small.setSp 0x80; (s.sp - 1).toNat < s.mem.size) ∧
    (let s := small.setSp 0x81; s.mem.size ≤ (s.sp - 1).toNat) := by decide

theorem witness_PopReadsAtSpAndIncrements :
    (7 : Byte).toNat < 8 ∧ 7 < (8 : Byte).toNat ∧
    (let s := State.reset.setSp 0xFF; s.mem.read s.sp.toNat = some 0x00) ∧
    (let s := small.setSp 0x80; s.mem.size ≤ s.sp.toNat) := by decide

theorem witness_PushThenPopRestoresValueAndSp :
    (7 : Byte).toNat < 8 ∧ (let s := small.setSp 0x80; (s.sp - 1).toNat < s.mem.size) := by decide

theorem witness_CallPushesReturnAndJumps :
    (7 : Byte).toNat < 8 ∧ 7 < (8 : Byte).toNat ∧
    (let s := State.reset.setSp 0x00; (s.sp - 1).toNat < s.mem.size) ∧
    (let s := small.setSp 0x81; s.mem.size ≤ (s.sp - 1).toNat) := by decide

theorem witness_RetPopsThePc :
    (let s := State.reset.setSp 0xFF; s.mem.read s.sp.toNat = some 0x00) ∧
    (let s := small.setSp 0x80; s.mem.size ≤ s.sp.toNat) := by decide

theorem witness_JeqJumpsOnEqual :
    (7 : Byte).toNat < 8 ∧ 7 < (8 : Byte).toNat ∧ (State.reset.setFl 0x01).fl &&& 1 = 1 ∧
    (State.reset.setFl 0xFE).fl &&& 1 = 0 := by decide

theorem witness_JneJumpsOnNotEqual :
    (7 : Byte).toNat < 8 ∧ 7 < (8 : Byte).toNat ∧ (State.reset.setFl 0xFE).fl &&& 1 = 0 ∧
    (State.reset.setFl 0xFF).fl &&& 1 = 1 := by decide

/-- The state the CALL leaves is itself such a `w`. -/
theorem witness_RetReturnsAfterCall :
    (7 : Byte).toNat < 8 ∧ (State.reset.sp - 1).toNat < State.reset.mem.size ∧
    ∃ t, exec (.call 7) State.reset = .next t ∧ t.sp = t.sp ∧ t.mem.read t.sp.toNat = t.mem.read t.sp.toNat :=
  ⟨by decide, by decide, _, rfl, rfl, rfl⟩

theorem witness_IntSetsOneStatusBit :
    (7 : Byte).toNat < 8 ∧ 7 < (8 : Byte).toNat ∧ ((State.reset.setReg 7 7).reg 7).toNat < 8 ∧
    7 < ((State.reset.setReg 7 8).reg 7).toNat := by decide

/-- Nine bytes that wrap past the top of memory; and the last and the first of the nine as the one outside. -/
theorem witness_IretRestoresNineBytes :
    (let s := State.reset.setSp 0xFC;
      ∀ k < 9, s.mem.read (s.sp + BitVec.ofNat 8 k).toNat = some 0x00) ∧
    (let s := small.setSp 0x78;
      (∀ j < 8, (s.sp + BitVec.ofNat 8 j).toNat < s.mem.size) ∧ s.mem.size ≤ (s.sp + BitVec.ofNat 8 8).toNat) ∧
    (let s := small.setSp 0x80; s.mem.size ≤ (s.sp + BitVec.ofNat 8 0).toNat) := by decide

theorem witness_IretUndoesAPushedFrame :
    ∃ t, ([0x2A] ++ (#v[1, 2, 3, 4, 5, 6, 7, 8] : Vector Byte 8).toList).foldlM push State.reset = .ok t :=
  ⟨_, rfl⟩

theorem witness_StepRunsTheDecodedInstruction :
    let s := start [0x82, 0x03, 0xFF] 0xFD
    let bs : List Byte := [0x82, 0x03, 0xFF]
    s.run = .running ∧ (∀ k < bs.length, s.mem.read (s.pc.toNat + k) = bs[k]?) ∧
    decode bs = .ok (.ldi 3 0xFF, []) := by decide

theorem witness_FetchOutsideMemoryHalts :
    (let s := small.setPc 0x80; s.run = .running ∧ s.mem.size ≤ s.pc.toNat) ∧
    (let s := start [0x47] 0xFF;
      s.mem.read s.pc.toNat = some Mnemonic.prn.opcode ∧ 1 < Mnemonic.prn.length ∧ s.mem.size ≤ s.pc.toNat + 1) ∧
    (let s := start [0x82, 0x00] 0xFE;
      s.mem.read s.pc.toNat = some Mnemonic.ldi.opcode ∧ 2 < Mnemonic.ldi.length ∧
      s.pc.toNat + 1 < s.mem.size ∧ s.mem.size ≤ s.pc.toNat + 2) := by decide

/-- Both kinds of byte: the ends of two illegal ranges, and two bytes of the map. -/
theorem witness_IllegalOpcodesHalt :
    (∀ op ∈ ([0x02, 0x10, 0xC0, 0xFF] : List Byte), let s := start [op] 0xFF
      s.run = .running ∧ s.mem.read s.pc.toNat = some op ∧
      ((0x02 ≤ op.toNat ∧ op.toNat ≤ 0x10) ∨ 0xC0 ≤ op.toNat)) ∧
    (∀ op ∈ ([0x00, 0xA7] : List Byte), let s := start [op] 0xFF
      s.run = .running ∧ s.mem.read s.pc.toNat = some op) := by decide

theorem witness_HaltedIsTerminal :
    let s := State.reset.halt ⟨.hlt, 0, some 0x01, none⟩
    s.run = .halted ∧ Reaches s s := ⟨rfl, .here⟩

/-- A plain instruction, and the two jumps when they are not taken. -/
theorem witness_PcAdvancesByTheLength :
    (∀ c ∈ [(Instr.ldi 0 5, (0x00 : Byte)), (.jeq 7, 0x00), (.jne 7, 0x01)],
      (done c.1 (State.reset.setFl c.2)).map (·.run) = some .running) ∧
    (State.reset.setFl 0x00).fl &&& 1 = 0 ∧ (State.reset.setFl 0x01).fl &&& 1 = 1 := by decide

theorem witness_IllegalRegisterOperandHalts :
    (Instr.add 8 0).registerOperands.head? = some 8 ∧ (Instr.add 7 8).registerOperands = [7, 8] ∧
    (Instr.div 7 7).wellFormed = true ∧ State.reset.run = .running ∧
    (done (.div 7 7) State.reset).map (fun t => (t.run, t.cause.map (·.code))) =
      some (.halted, some .divideByZero) := by decide

theorem witness_HaltingTickChangesNothingElse :
    (start [0x01] 0).run = .running ∧ (after (start [0x01] 0)).map (·.run) = some .halted := by decide

theorem witness_UnknownAluOpIsNeverRaised :
    let s := start [0xA3, 0x00, 0x01] 0
    s.run = .running ∧ (after s).map (fun t => (t.run, t.cause.map (·.code))) =
      some (.halted, some .divideByZero) := by decide

theorem witness_OnlyOperandFetchOutOfBoundsAt256 :
    let s := start [0x47] 0xFF;
    s.run = .running ∧ s.mem.size = 256 ∧ (after s).map (fun t => (t.run, t.cause.map (·.code))) =
      some (.halted, some .outOfBounds) := by decide

/-- Each of the instructions runs from reset, R1 and R2 being 1, without halting. -/
theorem witness_RegisterWritersFrame :
    ∀ i ∈ [Instr.ldi 1 2, .ld 1 2, .add 1 2, .sub 1 2, .mul 1 2, .div 1 2, .inc 1, .dec 1],
      (done i ((State.reset.setReg 1 1).setReg 2 1)).map (·.run) = some .running := by decide

/-- Each answers a next state, and all but HLT without halting. -/
theorem witness_NoRegisterNoStoreFrame :
    (∀ i ∈ [Instr.nop, .prn 1, .pra 1, .cmp 1 2, .jmp 1, .jeq 1, .jne 1, .int 1],
      (done i State.reset).map (·.run) = some .running) ∧
    (done .hlt State.reset).map (·.run) = some .halted := by decide

theorem witness_StoreFrame :
    (done (.st 1 2) State.reset).map (·.run) = some .running ∧ regOperand 1 = .ok 1 ∧
    (done (.st 8 0) State.reset).isSome ∧ (done (.st 0 8) State.reset).isSome ∧ 7 < (8 : Byte).toNat :=
  ⟨by decide, rfl, by decide, by decide, by decide⟩

theorem witness_StackInstructionsFrame :
    ∀ i ∈ [Instr.push 1, .call 1, .pop 1, .ret, .iret], (done i State.reset).map (·.run) = some .running := by
  decide

theorem witness_ImIsNeitherReadNorWritten : ∃ t, step (start [0x52, 0x00] 0) = .next t := ⟨_, rfl⟩

theorem witness_IsIsWrittenOnlyByIntAndReadByNothing :
    (∀ rA, Instr.nop ≠ .int rA) ∧ (∃ t, exec .nop State.reset = .next t) ∧
    ∃ t, step (start [0x52, 0x00] 0) = .next t := ⟨by simp, ⟨_, rfl⟩, ⟨_, rfl⟩⟩

theorem witness_OnlyBitZeroOfFlIsRead :
    (0x04 : Byte) &&& 1 = ((start [0x56, 0x00] 0).setFl 0x02).fl &&& 1 ∧
    (∃ t, step ((start [0x56, 0x00] 0).setFl 0x02) = .next t) ∧
    ((∀ rA, Instr.nop ≠ .jeq rA) ∧ (∀ rA, Instr.nop ≠ .jne rA) ∧ ∀ rA rB, Instr.nop ≠ .cmp rA rB) ∧
    ∃ t, exec .nop State.reset = .next t := ⟨by decide, ⟨_, rfl⟩, by simp, ⟨_, rfl⟩⟩

theorem witness_OnlyStackInstructionsUseSp :
    ((∀ rA, Instr.nop ≠ .push rA) ∧ (∀ rA, Instr.nop ≠ .pop rA) ∧ (∀ rA, Instr.nop ≠ .call rA) ∧
      Instr.nop ≠ .ret ∧ Instr.nop ≠ .iret) ∧ ∃ t, exec .nop State.reset = .next t := ⟨by simp, ⟨_, rfl⟩⟩

/-- A run of one tick, and the hypotheses on the instruction. -/
theorem witness_OutputOnlyGrowsByPrnAndPra :
    (∃ t, Reaches (start [0x47, 0x00] 0) t ∧ t.out = [0x30, 0x0A]) ∧
    ((∀ rA, Instr.nop ≠ .prn rA) ∧ ∀ rA, Instr.nop ≠ .pra rA) ∧ ∃ t, exec .nop State.reset = .next t :=
  ⟨⟨_, .tick .here rfl, rfl⟩, by simp, ⟨_, rfl⟩⟩

theorem witness_MemorySizeIsFixed :
    ∃ t, Reaches (start [0x45, 0x00] 0) t ∧ t.pc = 0x02 := ⟨_, .tick .here rfl, rfl⟩

/-- ST stores an HLT at the address of the next instruction; and the immediate of an LDI whose other two bytes
stand there. -/
theorem witness_StoreIsSeenByTheNextFetch :
    (let s := (State.reset.setReg 0 0x03).setReg 1 0x01;
      s.run = .running ∧ (done (.st 0 1) s).map (·.run) = some .running ∧
      (s.reg 0).toNat = (s.pc + 3).toNat + 0 ∧ (encode .hlt)[0]? = some (s.reg 1) ∧
      ∀ k < (encode .hlt).length, k ≠ 0 → s.mem.read ((s.pc + 3).toNat + k) = (encode .hlt)[k]?) ∧
    (let s := poke (poke ((State.reset.setReg 0 0x05).setReg 1 0xFF) 0x03 0x82) 0x04 0x07;
      s.run = .running ∧ (done (.st 0 1) s).map (·.run) = some .running ∧
      (s.reg 0).toNat = (s.pc + 3).toNat + 2 ∧ (encode (.ldi 7 0xFF))[2]? = some (s.reg 1) ∧
      ∀ k < (encode (.ldi 7 0xFF)).length, k ≠ 2 →
        s.mem.read ((s.pc + 3).toNat + k) = (encode (.ldi 7 0xFF))[k]?) := by decide

theorem witness_StepKeepsInv :
    CoreInv (start [0x01] 0) ∧ ∃ t, step (start [0x01] 0) = .next t :=
  ⟨⟨by decide, .inl rfl, .inl ⟨rfl, rfl⟩⟩, ⟨_, rfl⟩⟩

theorem witness_DecodedBytesAreTheEncoding : decode [0xA7, 0x04, 0xC8, 0x01] = .ok (.cmp 4 200, [0x01]) := by
  decide

theorem witness_AssemblyLineDenotesTheInstruction : (Instr.ldi 7 0xFF).wellFormed = true := by decide

/-- NOP, HLT: a run that ends after two ticks. -/
theorem witness_ARunHasOneEnd : ∃ t, EndsAfter (start [0x00, 0x01] 0) 2 t :=
  ⟨_, rfl, rfl, fun k hk => by
    match k, hk with
    | 0, _ => exact ⟨_, rfl, rfl⟩
    | 1, _ => exact ⟨_, rfl, rfl⟩⟩

end Sys2Proof.Tests
end

section
/-!
Noninterference of FL, IM and IS (10_state.md R32, R36, R38) and the growth of the output stream (R43). The
idea: a change `f` of the state that keeps everything the instructions read, and commutes with everything they
write, commutes with every rule; so it commutes with `exec` and with the tick.
-/

namespace Sys2Proof.Machine

/-! ## A change that the rules do not see -/

/-- `IM <- v`. No rule of the ISA does this (R36); it is only the change the statements compare two states by. -/
def State.setIm (s : State) (v : Byte) : State := { s with im := v }

/-- A change of the state that keeps memory, R0 to R7, PC, SP and the run state, and that commutes with every
write of an instruction but those to FL and IS. -/
structure Unread (f : State → State) : Prop where
  mem (s : State) : (f s).mem = s.mem
  regs (s : State) : (f s).regs = s.regs
  pc (s : State) : (f s).pc = s.pc
  sp (s : State) : (f s).sp = s.sp
  run (s : State) : (f s).run = s.run
  setReg (s : State) (i : Fin 8) (v : Byte) : (f s).setReg i v = f (s.setReg i v)
  setPc (s : State) (v : Byte) : (f s).setPc v = f (s.setPc v)
  setSp (s : State) (v : Byte) : (f s).setSp v = f (s.setSp v)
  setMem (s : State) (m : Memory) : (f s).setMem m = f (s.setMem m)
  emit (s : State) (cs : List Byte) : (f s).emit cs = f (s.emit cs)
  halt (s : State) (c : HaltCause) : (f s).halt c = f (s.halt c)

theorem setIm_unread (v : Byte) : Unread (fun s => s.setIm v) := by constructor <;> intros <;> rfl

theorem setIs_unread (v : Byte) : Unread (fun s => s.setIs v) := by constructor <;> intros <;> rfl

theorem setFl_unread (v : Byte) : Unread (fun s => s.setFl v) := by constructor <;> intros <;> rfl

/-- What an instruction's rule comes to, with its state changed by `f`. -/
def mapFlow (f : State → State) : Flow → Flow
  | .advance t => .advance (f t)
  | .redirect t => .redirect (f t)
  | .halt => .halt

@[simp] theorem mapFlow_advance (f : State → State) (t : State) : mapFlow f (.advance t) = .advance (f t) := rfl

@[simp] theorem mapFlow_redirect (f : State → State) (t : State) : mapFlow f (.redirect t) = .redirect (f t) := rfl

@[simp] theorem mapFlow_halt (f : State → State) : mapFlow f .halt = .halt := rfl

/-- Only CMP's answer is a flag update (R133). -/
theorem eq_cmp_of_alu_flags {op : AluOp} {a b : Byte} {e g l : Bool} (h : alu op a b = .ok (.flags e g l)) :
    op = .cmp := by
  cases op with
  | cmp => rfl
  | div => simp only [alu] at h; split at h <;> cases h
  | _ => cases h

section Commutes

variable {f : State → State} (hf : Unread f)
include hf

namespace Unread

/-! ### The shared operations -/

theorem reg (s : State) (i : Fin 8) : (f s).reg i = s.reg i := by
  simp only [State.reg, hf.regs]

theorem takeFault (s : State) (op : Option Byte) (e : Raise) : (f s).takeFault op e = f (s.takeFault op e) := by
  simp only [State.takeFault, hf.pc, hf.halt]

theorem memRead (s : State) (a : Nat) : memRead (f s) a = memRead s a := by
  simp only [Machine.memRead, hf.mem]

theorem memWrite (s : State) (a : Nat) (v : Byte) : memWrite (f s) a v = f <$> memWrite s a v := by
  simp only [Machine.memWrite, hf.mem]
  cases s.mem.write a v with
  | none => rfl
  | some m => exact congrArg Except.ok (hf.setMem s m)

theorem push (s : State) (v : Byte) : push (f s) v = f <$> push s v := by
  simp only [Machine.push, hf.sp, hf.setSp, hf.memWrite]

theorem pop (s : State) : pop (f s) = (fun p => (p.1, f p.2)) <$> pop s := by
  simp only [Machine.pop, hf.sp, hf.setSp, hf.memRead, map_bind]
  rfl

theorem popRegs (is : List (Fin 8)) (s : State) : popRegs is (f s) = f <$> popRegs is s := by
  induction is generalizing s with
  | nil => rfl
  | cons i rest ih => simp only [Machine.popRegs, hf.pop, bind_map_left, map_bind, hf.setReg, ih]

theorem conclude (m : Mnemonic) (s : State) (r : Except Raise Flow) :
    conclude m (f s) (mapFlow f <$> r) = mapNext f (conclude m s r) := by
  match r with
  | .error e => exact congrArg Host.Outcome.next (hf.takeFault s _ e)
  | .ok .halt => simp [hf.pc, hf.halt]
  | .ok (.advance t) => simp [hf.pc, hf.setPc]
  | .ok (.redirect t) => rfl

/-! ### The rules -/

/-- A rule of one register operand commutes with `f` where the rest of it does, whatever the register. -/
theorem unary {m : Mnemonic} {s : State} {rA : Byte} {g g' : Fin 8 → Except Raise Flow}
    (hg : ∀ d, g' d = mapFlow f <$> g d) :
    Machine.conclude m (f s) (regOperand rA >>= g') = mapNext f (Machine.conclude m s (regOperand rA >>= g)) := by
  rw [← hf.conclude, map_bind, funext hg]

/-- A rule of two register operands commutes with `f` where the rest of it does, whatever the registers. -/
theorem binary {m : Mnemonic} {s : State} {rA rB : Byte} {g g' : Fin 8 × Fin 8 → Except Raise Flow}
    (hg : ∀ p, g' p = mapFlow f <$> g p) :
    Machine.conclude m (f s) (regOperands rA rB >>= g') =
      mapNext f (Machine.conclude m s (regOperands rA rB >>= g)) := by
  rw [← hf.conclude, map_bind, funext hg]

/-- A jump with its branch given, taken or not. -/
theorem jumpIf (m : Mnemonic) (taken : Bool) (rA : Byte) (s : State) :
    Machine.conclude m (f s) (jumpIf taken rA (f s)) = mapNext f (Machine.conclude m s (jumpIf taken rA s)) :=
  hf.unary fun d => by cases taken <;> simp [hf.reg, hf.setPc]

/-- The use of the ALU; CMP's is the one that sees FL. -/
theorem aluApply {op : AluOp} {s : State} (d e : Fin 8)
    (hcmp : op = .cmp → ∀ e g l,
      (f s).setFl (setCompareFlags (f s).fl e g l) = f (s.setFl (setCompareFlags s.fl e g l))) :
    aluApply op d e (f s) = mapFlow f <$> aluApply op d e s := by
  simp only [Machine.aluApply, hf.reg]
  cases hr : alu op (s.reg d) (s.reg e) with
  | error x => cases x <;> rfl
  | ok r =>
    cases r with
    | byte v => simp [hf.setReg]
    | flags e g l => simp [hcmp (eq_cmp_of_alu_flags hr)]

/-- An instruction commutes with `f` where what it does with FL and IS does: the branch of JEQ and JNE, and the
writes of CMP and INT. -/
theorem exec (i : Instr) (s : State)
    (hjump : (∃ rA, i = .jeq rA ∨ i = .jne rA) → getFlag (f s).fl flagE = getFlag s.fl flagE)
    (hcmp : (∃ rA rB, i = .cmp rA rB) → ∀ e g l,
      (f s).setFl (setCompareFlags (f s).fl e g l) = f (s.setFl (setCompareFlags s.fl e g l)))
    (hint : (∃ rA, i = .int rA) → ∀ n : Nat,
      (f s).setIs ((f s).is ||| (1 : Byte) <<< n) = f (s.setIs (s.is ||| (1 : Byte) <<< n))) :
    exec i (f s) = mapNext f (exec i s) := by
  cases i with
  | nop => exact hf.conclude .nop s (.ok (.advance s))
  | hlt => exact hf.conclude .hlt s (.ok .halt)
  | ldi rA imm8 => exact hf.unary fun d => by simp [hf.setReg]
  | ld rA rB => exact hf.binary fun p => by simp [hf.reg, hf.memRead, hf.setReg]
  | st rA rB => exact hf.binary fun p => by simp [hf.reg, hf.memWrite]
  | prn rA => exact hf.unary fun d => by simp [hf.reg, hf.emit]
  | pra rA => exact hf.unary fun d => by simp [hf.reg, hf.emit]
  | push rA => exact hf.unary fun d => by simp [hf.reg, hf.push]
  | pop rA => exact hf.unary fun d => by simp [hf.pop, hf.setReg]
  | call rA => exact hf.unary fun d => by simp [hf.reg, hf.pc, hf.push, hf.setPc]
  | ret => simp [Machine.exec, execRet, ← hf.conclude, hf.pop, hf.setPc]
  | iret => simp [Machine.exec, execIret, ← hf.conclude, hf.pop, hf.popRegs, hf.setPc]
  | jmp rA => exact hf.unary fun d => by simp [hf.reg, hf.setPc]
  | jeq rA => simp only [Machine.exec, execJeq, hjump ⟨rA, .inl rfl⟩, hf.jumpIf]
  | jne rA => simp only [Machine.exec, execJne, hjump ⟨rA, .inr rfl⟩, hf.jumpIf]
  | int rA =>
    refine hf.unary fun d => ?_
    simp only [hf.reg, hint ⟨rA, rfl⟩]
    split <;> rfl
  | add rA rB => exact hf.binary fun p => hf.aluApply p.1 p.2 (by simp)
  | sub rA rB => exact hf.binary fun p => hf.aluApply p.1 p.2 (by simp)
  | mul rA rB => exact hf.binary fun p => hf.aluApply p.1 p.2 (by simp)
  | div rA rB => exact hf.binary fun p => hf.aluApply p.1 p.2 (by simp)
  | inc rA => exact hf.unary fun d => hf.aluApply d d (by simp)
  | dec rA => exact hf.unary fun d => hf.aluApply d d (by simp)
  | cmp rA rB => exact hf.binary fun p => hf.aluApply p.1 p.2 fun _ => hcmp ⟨rA, rB, rfl⟩

theorem fetch (s : State) : fetch (f s) = fetch s := by
  simp only [Machine.fetch, hf.mem, hf.pc]

theorem fetchFault (s : State) (e : DecodeError) : fetchFault (f s) e = f (fetchFault s e) := by
  cases e <;> simp only [Machine.fetchFault, hf.pc, hf.takeFault]

/-- The tick commutes with `f` outright, or it is the execution of one instruction in both states. -/
theorem step (s : State) :
    step (f s) = mapNext f (step s) ∨ ∃ i, step s = Machine.exec i s ∧ step (f s) = Machine.exec i (f s) := by
  simp only [Machine.step, tick, hf.run, hf.fetch, hf.fetchFault]
  cases s.run with
  | halted => exact .inl rfl
  | running =>
    cases Machine.fetch s with
    | error e => exact .inl rfl
    | ok i => exact .inr ⟨i, rfl, rfl⟩

end Unread
end Commutes

/-! ## IM (R36) -/

theorem exec_setIm (i : Instr) (s : State) (v : Byte) :
    exec i (s.setIm v) = mapNext (fun t => t.setIm v) (exec i s) :=
  (setIm_unread v).exec i s (fun _ => rfl) (fun _ _ _ _ => rfl) fun _ _ => rfl

theorem step_setIm (s : State) (v : Byte) : step (s.setIm v) = mapNext (fun t => t.setIm v) (step s) := by
  rcases (setIm_unread v).step s with h | ⟨i, hs, hf⟩
  · exact h
  · rw [hs, hf, exec_setIm]

/-- The tick keeps IM: putting the IM of the state before it into the state after it changes nothing. -/
theorem step_im {s t : State} (h : step s = .next t) : t.im = s.im := by
  have hs := step_setIm s s.im
  rw [show s.setIm s.im = s from rfl, h, mapNext_next, Host.Outcome.next.injEq] at hs
  rw [hs]
  rfl

/-- Settles O44: the tick commutes with a change of IM. -/
theorem imIsNeitherReadNorWritten : Obligations.ImIsNeitherReadNorWritten :=
  fun s v => ⟨step_setIm s v, fun _ => step_im⟩

/-! ## IS (R38) -/

theorem one_shiftLeft (n : Nat) : (1 : Byte) <<< n = BitVec.ofNat 8 (2 ^ n) :=
  BitVec.eq_of_toNat_eq (by simp [Nat.shiftLeft_eq])

/-- INT sets one bit of IS, and every other effect keeps IS. -/
theorem exec_is {i : Instr} {s t : State} (h : exec i s = .next t) :
    t.is = s.is ∨ ∃ rA, i = .int rA ∧ ∃ n < 8, t.is = s.is ||| (1 : Byte) <<< n := by
  cases exec_effect h with
  | raiseLine n rA hi hn => exact .inr ⟨rA, hi, n, hn, rfl⟩
  | _ => exact .inl rfl

theorem exec_int_setIs {rA : Byte} {s t : State} (v : Byte) (h : exec (.int rA) s = .next t) :
    ∃ w, exec (.int rA) (s.setIs v) = .next (t.setIs w) := by
  rcases regOperand_cases rA with ⟨hA, he⟩ | ⟨_, he⟩
  · by_cases hn : (s.reg ⟨rA.toNat, hA⟩).toNat < 8
    all_goals
      simp only [exec, execInt, he, ok_bind, State.setIs_reg, hn, if_true, if_false] at h ⊢
      cases h
      exact ⟨_, rfl⟩
  · simp only [exec, execInt, he, error_bind] at h ⊢
    cases h
    exact ⟨v, rfl⟩

theorem exec_setIs {i : Instr} {s t : State} (v : Byte) (h : exec i s = .next t) :
    ∃ w, exec i (s.setIs v) = .next (t.setIs w) := by
  by_cases hi : ∃ rA, i = .int rA
  · obtain ⟨rA, rfl⟩ := hi
    exact exec_int_setIs v h
  · refine ⟨v, ?_⟩
    rw [(setIs_unread v).exec i s (fun _ => rfl) (fun _ _ _ _ => rfl) fun hint => absurd hint hi, h, mapNext_next]

theorem step_setIs {s t : State} (v : Byte) (h : step s = .next t) :
    ∃ w, step (s.setIs v) = .next (t.setIs w) := by
  rcases (setIs_unread v).step s with hm | ⟨i, hs, hf⟩
  · exact ⟨v, by rw [hm, h, mapNext_next]⟩
  · rw [hf]
    exact exec_setIs v (hs ▸ h)

/-- Settles O45: `exec_is` for the writes, `step_setIs` for the reads. -/
theorem isIsWrittenOnlyByIntAndReadByNothing : Obligations.IsIsWrittenOnlyByIntAndReadByNothing := by
  refine ⟨fun i s t h => ?_, fun s t v h => step_setIs v h⟩
  rcases exec_is h with his | ⟨rA, rfl, n, hn, his⟩
  · exact ⟨fun _ => his, by rw [his, BitVec.and_self], .inl his⟩
  · refine ⟨fun hi => absurd rfl (hi rA), ?_, .inr ⟨n, hn, ?_⟩⟩
    · rw [his]
      ext k
      simp +contextual
    · rw [his, one_shiftLeft]

/-! ## FL (R30, R32) -/

/-- CMP writes FL, and every other effect keeps it. -/
theorem exec_fl {i : Instr} {s t : State} (hi : ∀ rA rB, i ≠ .cmp rA rB) (h : exec i s = .next t) :
    t.fl = s.fl := by
  cases exec_effect h with
  | compare a b rA rB hcmp => exact absurd hcmp (hi rA rB)
  | _ => rfl

theorem exec_cmp_setFl {rA rB : Byte} {s t : State} (v : Byte) (h : exec (.cmp rA rB) s = .next t) :
    ∃ w, exec (.cmp rA rB) (s.setFl v) = .next (t.setFl w) := by
  rcases regOperands_cases rA rB with ⟨hA, hB, he⟩ | ⟨_, he⟩ | ⟨_, _, he⟩
  all_goals
    simp only [exec, execCmp, aluBinary, he] at h ⊢
    cases h
    exact ⟨_, rfl⟩

/-- An instruction answers the same but for FL, whatever FL holds, where the branch of JEQ and JNE does. -/
theorem exec_setFl {i : Instr} {s t : State} (v : Byte)
    (hE : (∃ rA, i = .jeq rA ∨ i = .jne rA) → getFlag v flagE = getFlag s.fl flagE) (h : exec i s = .next t) :
    ∃ w, exec i (s.setFl v) = .next (t.setFl w) := by
  by_cases hi : ∃ rA rB, i = .cmp rA rB
  · obtain ⟨rA, rB, rfl⟩ := hi
    exact exec_cmp_setFl v h
  · refine ⟨v, ?_⟩
    rw [(setFl_unread v).exec i s hE (fun hcmp => absurd hcmp hi) (fun _ _ => rfl), h, mapNext_next]

theorem step_setFl {s t : State} {v : Byte} (hE : getFlag v flagE = getFlag s.fl flagE) (h : step s = .next t) :
    ∃ w, step (s.setFl v) = .next (t.setFl w) := by
  rcases (setFl_unread v).step s with hm | ⟨i, hs, hf⟩
  · exact ⟨v, by rw [hm, h, mapNext_next]⟩
  · rw [hf]
    exact exec_setFl v (fun _ => hE) (hs ▸ h)

/-- Settles O46: bit 0 of FL is all that the tick reads of it, JEQ and JNE are all that read it, CMP all that
writes it. -/
theorem onlyBitZeroOfFlIsRead : Obligations.OnlyBitZeroOfFlIsRead := by
  refine ⟨fun s t v hv h => step_setFl ?_ h, fun i s t v hjeq hjne h => exec_setFl v ?_ h, fun i s t => exec_fl⟩
  · rw [getFlag_flagE, getFlag_flagE, hv]
  · rintro ⟨rA, hi | hi⟩
    · exact absurd hi (hjeq rA)
    · exact absurd hi (hjne rA)

/-! ## The output stream (R43) -/

/-- PRN and PRA append to the output, and every other effect keeps it. -/
theorem exec_out {i : Instr} {s t : State} (h : exec i s = .next t) :
    t.out = s.out ∨ ∃ rA cs, (i = .prn rA ∨ i = .pra rA) ∧ t.out = s.out ++ cs := by
  cases exec_effect h with
  | emit cs rA hi => exact .inr ⟨rA, cs, hi, rfl⟩
  | _ => exact .inl rfl

theorem exec_out_grows {i : Instr} {s t : State} (h : exec i s = .next t) : ∃ cs, t.out = s.out ++ cs := by
  rcases exec_out h with ho | ⟨_, cs, _, ho⟩
  · exact ⟨[], by rw [ho, List.append_nil]⟩
  · exact ⟨cs, ho⟩

theorem step_out_grows {s t : State} (h : step s = .next t) : ∃ cs, t.out = s.out ++ cs := by
  rcases step_cases h with ⟨_, rfl⟩ | ⟨_, _, rfl⟩ | ⟨_, _, _, _, rfl⟩ | ⟨_, _, _, _, _, _, _, rfl⟩ | ⟨_, _, _, he⟩
  case inr.inr.inr.inr => exact exec_out_grows he
  all_goals exact ⟨[], (List.append_nil _).symm⟩

theorem reaches_out_grows {s t : State} (h : Reaches s t) : ∃ cs, t.out = s.out ++ cs := by
  induction h with
  | here => exact ⟨[], (List.append_nil _).symm⟩
  | tick _ hstep ih =>
    obtain ⟨cs, hcs⟩ := ih
    obtain ⟨ds, hds⟩ := step_out_grows hstep
    exact ⟨cs ++ ds, by rw [hds, hcs, List.append_assoc]⟩

/-- Settles O48: an instruction's effect on the output (`exec_out`), and an induction over the run. -/
theorem outputOnlyGrowsByPrnAndPra : Obligations.OutputOnlyGrowsByPrnAndPra := by
  refine ⟨rfl, fun i s t h => ⟨exec_out_grows h, fun hprn hpra => ?_⟩, fun s t => reaches_out_grows⟩
  rcases exec_out h with ho | ⟨rA, _, hi | hi, _⟩
  · exact ho
  · exact absurd hi (hprn rA)
  · exact absurd hi (hpra rA)

end Sys2Proof.Machine
end

section
/-!
The contracts of memory (20_memory.md R51, R52): accesses inside memory succeed, and what a read gives after a
write, to the byte written and to every other.
-/

namespace Sys2Proof.Machine

theorem Memory.exists_write_of_lt {m : Memory} {a : Nat} (v : Byte) (h : a < m.size) :
    ∃ m', m.write a v = some m' :=
  ⟨_, Memory.write_eq_some.mpr ⟨h, rfl⟩⟩

theorem Memory.read_of_write_same {m m' : Memory} {a : Nat} {v : Byte} (h : m.write a v = some m') :
    m'.read a = some v := by
  rw [Memory.read_of_write h, if_pos rfl]

theorem Memory.read_of_write_other {m m' : Memory} {a b : Nat} {v : Byte} (h : m.write a v = some m')
    (hb : b ≠ a) : m'.read b = m.read b := by
  rw [Memory.read_of_write h, if_neg hb]

/-- `MemRead` sees nothing of the state but the byte of memory at its address. -/
theorem memRead_congr {s t : State} {a : Nat} (h : t.mem.read a = s.mem.read a) : memRead t a = memRead s a := by
  simp only [memRead, h]

/-- Settles O2: from the laws of `Memory.read` and `Memory.write`, on either side of the size. -/
theorem memoryReadAndWriteContracts : Obligations.MemoryReadAndWriteContracts := by
  intro s a v
  constructor
  case left => exact fun hout => ⟨memRead_error.mpr ⟨hout, rfl⟩, memWrite_error.mpr ⟨hout, rfl⟩⟩
  case right =>
    intro hin
    have hread := Memory.read_of_lt hin
    obtain ⟨m, hm⟩ := Memory.exists_write_of_lt v hin
    have hsame := Memory.read_of_write_same hm
    have hother : ∀ b ≠ a, m.read b = s.mem.read b := fun _ => Memory.read_of_write_other hm
    exact ⟨⟨_, hread, memRead_ok.mpr hread⟩, m, memWrite_ok.mpr ⟨m, hm, rfl⟩, load_next.mpr ⟨m, hm, rfl⟩,
      Memory.size_of_write hm, hsame, hother, memRead_ok.mpr hsame, fun b hb => memRead_congr (hother b hb)⟩

end Sys2Proof.Machine
end

section
/-!
The fetch of the tick (30_encoding.md R79 steps (2) to (6), R80, R81, R88): which bytes at PC give which answer of
the decoder, and what the tick does with each answer.
-/

namespace Sys2Proof

/-! ## The decoder's answer, given the bytes -/

theorem decodeWith_noOpcode {byte : Nat → Option Byte} (h0 : byte 0 = none) :
    decodeWith byte = .error .noOpcode := by
  simp [decodeWith, h0]

theorem decodeWith_unknownOpcode {byte : Nat → Option Byte} {op : Byte} (h0 : byte 0 = some op)
    (hl : opcodeLookup op = none) : decodeWith byte = .error (.unknownOpcode op) := by
  simp [decodeWith, h0, hl]

theorem decodeWith_noFirstOperand {byte : Nat → Option Byte} {m : Mnemonic} (h0 : byte 0 = some m.opcode)
    (hlen : 1 < m.length) (h1 : byte 1 = none) : decodeWith byte = .error (.noOperand m.opcode 1) := by
  have hlen' : ¬ opcodeLength m.opcode < 2 := Nat.not_lt.mpr hlen
  simp [decodeWith, h0, opcodeLookup_opcode, hlen', h1]

theorem decodeWith_noSecondOperand {byte : Nat → Option Byte} {m : Mnemonic} {a : Byte}
    (h0 : byte 0 = some m.opcode) (hlen : 2 < m.length) (h1 : byte 1 = some a) (h2 : byte 2 = none) :
    decodeWith byte = .error (.noOperand m.opcode 2) := by
  have hlen' : ¬ opcodeLength m.opcode < 3 := Nat.not_lt.mpr hlen
  have hlen'' : ¬ opcodeLength m.opcode < 2 := fun h => hlen' (Nat.lt_succ_of_lt h)
  simp [decodeWith, h0, opcodeLookup_opcode, hlen', hlen'', h1, h2]

theorem opcode_inj {m n : Mnemonic} (h : m.opcode = n.opcode) : m = n :=
  Option.some.inj (by rw [← opcodeLookup_opcode m, h, opcodeLookup_opcode n])

/-- Where all bytes that the opcode's length names are there, the decoder answers an instruction of its mnemonic. -/
theorem decodeWith_whole {byte : Nat → Option Byte} {m : Mnemonic} (h0 : byte 0 = some m.opcode)
    (hall : ∀ k < m.length, byte k ≠ none) : ∃ i : Instr, i.mnemonic = m ∧ decodeWith byte = .ok i := by
  rcases decodeWith_cases byte with
    ⟨hn, _⟩ | ⟨op, hop, hl, _⟩ | ⟨n, hn, hlen, h1, _⟩ | ⟨n, hn, hlen, _, h2, _⟩ | ⟨i, hi, hd⟩
  · simp [hn] at h0
  · obtain rfl : op = m.opcode := Option.some.inj (hop.symm.trans h0)
    simp [opcodeLookup_opcode] at hl
  · obtain rfl := opcode_inj (Option.some.inj (hn.symm.trans h0))
    exact absurd h1 (hall 1 hlen)
  · obtain rfl := opcode_inj (Option.some.inj (hn.symm.trans h0))
    exact absurd h2 (hall 2 hlen)
  · have hfirst : byte 0 = some i.mnemonic.opcode := hi 0 (Nat.succ_pos _)
    exact ⟨i, opcode_inj (Option.some.inj (hfirst.symm.trans h0)), hd⟩

/-! ## The bytes outside the opcode map (R88) -/

/-- The ranges of R88. -/
abbrev inIllegalRanges (n : Nat) : Prop :=
  (0x02 ≤ n ∧ n ≤ 0x10) ∨ n = 0x12 ∨ (0x14 ≤ n ∧ n ≤ 0x3F) ∨ (0x40 ≤ n ∧ n ≤ 0x44) ∨
  (0x49 ≤ n ∧ n ≤ 0x4F) ∨ n = 0x51 ∨ n = 0x53 ∨ (0x57 ≤ n ∧ n ≤ 0x64) ∨ (0x67 ≤ n ∧ n ≤ 0x7F) ∨
  n = 0x80 ∨ n = 0x81 ∨ (0x85 ≤ n ∧ n ≤ 0x9F) ∨ (0xA4 ≤ n ∧ n ≤ 0xA6) ∨ (0xA8 ≤ n ∧ n ≤ 0xBF) ∨ 0xC0 ≤ n

/-- The opcode map lists no byte exactly in the ranges of R88; a check of the 256 bytes. -/
theorem opcodeLookup_eq_none {op : Byte} : opcodeLookup op = none ↔ inIllegalRanges op.toNat := by
  revert op
  decide

end Sys2Proof

namespace Sys2Proof.Machine

/-! ## The tick of a Running machine -/

theorem step_of_fetch_error {s : State} {e : DecodeError} (hrun : s.run = .running) (h : fetch s = .error e) :
    step s = .next (fetchFault s e) := by
  simp only [step, tick, hrun, h]

theorem step_of_fetch_ok {s : State} {i : Instr} (hrun : s.run = .running) (h : fetch s = .ok i) :
    step s = exec i s := by
  simp only [step, tick, hrun, h]

/-- Settles O31: the decoder's answer for the bytes at PC in each of the four cases. -/
theorem fetchOutsideMemoryHalts : Obligations.FetchOutsideMemoryHalts := by
  intro s hrun
  refine ⟨fun hpc => ?_, fun m hop => ⟨fun hlen h1 => ?_, fun hlen h1 h2 => ?_, fun hin => ?_⟩⟩
  · exact step_of_fetch_error hrun (decodeWith_noOpcode (Memory.read_eq_none.mpr hpc))
  · exact step_of_fetch_error hrun (decodeWith_noFirstOperand hop hlen (Memory.read_eq_none.mpr h1))
  · exact step_of_fetch_error hrun
      (decodeWith_noSecondOperand hop hlen (Memory.read_of_lt h1) (Memory.read_eq_none.mpr h2))
  · have hall : ∀ k < m.length, s.mem.read (s.pc.toNat + k) ≠ none := fun k hk hnone => by
      have hout := Memory.read_eq_none.mp hnone
      omega
    obtain ⟨i, hi, hd⟩ := decodeWith_whole hop hall
    exact ⟨i, hi, step_of_fetch_ok hrun hd⟩

/-- Settles O32: the ranges are the bytes that the opcode map does not list. -/
theorem illegalOpcodesHalt : Obligations.IllegalOpcodesHalt := by
  intro s op hrun hop
  constructor
  case left =>
    intro hillegal
    exact step_of_fetch_error hrun (decodeWith_unknownOpcode hop (opcodeLookup_eq_none.mpr hillegal))
  case right =>
    intro hlegal
    obtain ⟨m, hm⟩ := Option.ne_none_iff_exists'.mp (mt opcodeLookup_eq_none.mp hlegal)
    exact ⟨m, (opcode_of_lookup hm).symm⟩

end Sys2Proof.Machine
end

section
/-!
The end of an instruction (R84) and the check of its register operands (R76, R83, R203).
-/

namespace Sys2Proof.Machine

/-! ## PC after an instruction (R84) -/

/-- Settles O35: of the effects of `exec_effect`, those that neither halt nor redirect set PC to `nextPc`. -/
theorem pcAdvancesByTheLength : Obligations.PcAdvancesByTheLength := by
  intro i s t _ h hrun hcall hjmp hret hiret hjeq hjne
  rw [length_encode]
  cases exec_effect h with
  | fault => cases hrun
  | halt => cases hrun
  | jump v hi =>
    rcases hi with ⟨rA, hi⟩ | ⟨rA, hi, hE⟩ | ⟨rA, hi, hE⟩
    · exact absurd hi (hjmp rA)
    · rw [getFlag_flagE, hjeq rA hi] at hE
      exact absurd hE (by decide)
    · rw [getFlag_flagE, hjne rA hi] at hE
      exact absurd hE (by decide)
  | call d m rA hi => exact absurd hi (hcall rA)
  | ret v hi => exact absurd hi hret
  | iret regs v hi => exact absurd hi hiret
  | _ => rfl

/-! ## The check of the register operands (R83) -/

/-- What each instruction does first: it has no register operand, or its rule checks the one it has, or the two,
`rA` before `rB`. -/
theorem exec_operand_cases (i : Instr) :
    i.registerOperands = [] ∨
    (∃ a, i.registerOperands = [a] ∧ ∀ s, ∃ f, exec i s = conclude i.mnemonic s (regOperand a >>= f)) ∨
    (∃ a b, i.registerOperands = [a, b] ∧
      ∀ s, ∃ f, exec i s = conclude i.mnemonic s (regOperands a b >>= f)) := by
  cases i with
  | nop | hlt | ret | iret => exact .inl rfl
  | ld | st | add | sub | mul | div | cmp => exact .inr (.inr ⟨_, _, rfl, fun _ => ⟨_, rfl⟩⟩)
  | _ => exact .inr (.inl ⟨_, rfl, fun _ => ⟨_, rfl⟩⟩)

theorem exec_first_illegal {i : Instr} {a : Byte} (s : State) (hi : i.registerOperands.head? = some a)
    (ha : 7 < a.toNat) :
    exec i s = .next (faulted s .invalidRegister (some i.mnemonic.opcode) a.toNat) := by
  rcases exec_operand_cases i with hnone | ⟨b, hb, hexec⟩ | ⟨b, c, hb, hexec⟩
  · simp [hnone] at hi
  · obtain rfl : b = a := by simpa [hb] using hi
    obtain ⟨f, hf⟩ := hexec s
    rw [hf, regOperand_error ha]
    rfl
  · obtain rfl : b = a := by simpa [hb] using hi
    obtain ⟨f, hf⟩ := hexec s
    rw [hf, regOperands_first c ha]
    rfl

theorem exec_second_illegal {i : Instr} {a b : Byte} (s : State) (hi : i.registerOperands = [a, b])
    (ha : a.toNat < 8) (hb : 7 < b.toNat) :
    exec i s = .next (faulted s .invalidRegister (some i.mnemonic.opcode) b.toNat) := by
  rcases exec_operand_cases i with hnone | ⟨c, hc, _⟩ | ⟨c, d, hc, hexec⟩
  · simp [hnone] at hi
  · simp [hc] at hi
  · obtain ⟨rfl, rfl⟩ : c = a ∧ d = b := by simpa [hc] using hi
    obtain ⟨f, hf⟩ := hexec s
    rw [hf, regOperands_second ha hb]
    rfl

/-- An instruction that halts a Running machine took a fault of its own, or is HLT. -/
theorem exec_halted_cases {i : Instr} {s t : State} (h : exec i s = .next t) (hrun : s.run = .running)
    (hhalt : t.run = .halted) :
    (∃ e : Raise, e.code ≠ .unknownAluOp ∧ (e.code = .invalidRegister → i.wellFormed = false) ∧
      t = s.takeFault (some i.mnemonic.opcode) e) ∨
    (i = .hlt ∧ t = s.halt { code := .hlt, pc := s.pc, op := some i.mnemonic.opcode, detail := none }) := by
  cases exec_effect h with
  | fault e hcode hreg => exact .inl ⟨e, hcode.2, hreg, rfl⟩
  | halt hi => exact .inr ⟨hi, rfl⟩
  | _ => cases hrun.symm.trans hhalt

/-- Settles O36: the operand check stands first in every rule, and only an illegal operand raises its fault. -/
theorem illegalRegisterOperandHalts : Obligations.IllegalRegisterOperandHalts := by
  intro i s
  refine ⟨fun a => exec_first_illegal s, fun a b => exec_second_illegal s, fun hwf t c hrun h hhalt hcause => ?_⟩
  rcases exec_halted_cases h hrun hhalt with ⟨e, _, hreg, rfl⟩ | ⟨_, rfl⟩
  · obtain rfl := Option.some.inj hcause
    intro hcode
    simp [hreg hcode] at hwf
  · obtain rfl := Option.some.inj hcause
    simp

end Sys2Proof.Machine
end

section
/-!
NOP and HLT (R100, R101), and the tick of a Halted machine (R40, R79 step (1)).
-/

namespace Sys2Proof.Machine

/-- NOP has nothing but the advance by its length. -/
theorem exec_nop (s : State) : exec .nop s = .next (s.setPc (s.pc + 1)) :=
  conclude_advance .nop s s

/-- HLT enters Halted with its own address, opcode and no detail as the cause. -/
theorem exec_hlt (s : State) :
    exec .hlt s = .next (s.halt { code := .hlt, pc := s.pc, op := some 0x01, detail := none }) :=
  conclude_halt .hlt s

theorem step_of_halted {s : State} (h : s.run = .halted) : step s = .next s := by
  simp only [step, tick, h]

/-- Settles O4: the rule of NOP is the end of its tick alone. -/
theorem nopOnlyAdvances : Obligations.NopOnlyAdvances :=
  fun s => ⟨rfl, exec_nop s⟩

/-- Settles O5: HLT enters Halted, and the tick of a Halted machine is the unchanged state. -/
theorem hltHaltsAtItsAddress : Obligations.HltHaltsAtItsAddress :=
  fun s => ⟨rfl, rfl, exec_hlt s, step_of_halted (State.halt_run _ _)⟩

end Sys2Proof.Machine
end

section
/-!
LDI, LD and ST (41_load_store.md R110 to R113): with legal operands each rule comes to its one write or memory
access; the operand faults are those of `exec_first_illegal` and `exec_second_illegal`.
-/

namespace Sys2Proof.Machine

section Rules
variable {s : State} {rA rB : Byte}

/-! ## The rules with legal operands -/

theorem exec_ldi_of_legal (imm8 : Byte) (hA : rA.toNat < 8) :
    exec (.ldi rA imm8) s = .next ((s.setReg ⟨rA.toNat, hA⟩ imm8).setPc (s.pc + 3)) := by
  change execLdi rA imm8 s = _
  rw [execLdi, regOperand_ok hA]
  exact conclude_advance .ldi s _

theorem exec_ld_of_legal (hA : rA.toNat < 8) (hB : rB.toNat < 8) :
    exec (.ld rA rB) s = conclude .ld s
      (memRead s (s.reg ⟨rB.toNat, hB⟩).toNat >>= fun v => .ok (.advance (s.setReg ⟨rA.toNat, hA⟩ v))) := by
  change execLd rA rB s = _
  rw [execLd, regOperands_ok hA hB]
  rfl

theorem exec_st_of_legal (hA : rA.toNat < 8) (hB : rB.toNat < 8) :
    exec (.st rA rB) s = conclude .st s
      (memWrite s (s.reg ⟨rA.toNat, hA⟩).toNat (s.reg ⟨rB.toNat, hB⟩) >>= fun t => .ok (.advance t)) := by
  change execSt rA rB s = _
  rw [execSt, regOperands_ok hA hB]
  rfl

/-! ## The access inside memory, and outside it -/

theorem exec_ld_of_read {v : Byte} (hA : rA.toNat < 8) (hB : rB.toNat < 8)
    (hread : s.mem.read (s.reg ⟨rB.toNat, hB⟩).toNat = some v) :
    exec (.ld rA rB) s = .next ((s.setReg ⟨rA.toNat, hA⟩ v).setPc (s.pc + 3)) := by
  rw [exec_ld_of_legal hA hB, memRead_ok.mpr hread]
  exact conclude_advance .ld s _

theorem exec_ld_of_outside (hA : rA.toNat < 8) (hB : rB.toNat < 8)
    (hout : s.mem.size ≤ (s.reg ⟨rB.toNat, hB⟩).toNat) :
    exec (.ld rA rB) s = .next (faulted s .outOfBounds (some 0x83) (s.reg ⟨rB.toNat, hB⟩).toNat) := by
  rw [exec_ld_of_legal hA hB, memRead_error.mpr ⟨hout, rfl⟩]
  exact conclude_error .ld s _

theorem exec_st_of_write {m : Memory} (hA : rA.toNat < 8) (hB : rB.toNat < 8)
    (hwrite : s.mem.write (s.reg ⟨rA.toNat, hA⟩).toNat (s.reg ⟨rB.toNat, hB⟩) = some m) :
    exec (.st rA rB) s = .next ((s.setMem m).setPc (s.pc + 3)) := by
  rw [exec_st_of_legal hA hB, memWrite_ok.mpr ⟨m, hwrite, rfl⟩]
  exact conclude_advance .st s _

theorem exec_st_of_outside (hA : rA.toNat < 8) (hB : rB.toNat < 8)
    (hout : s.mem.size ≤ (s.reg ⟨rA.toNat, hA⟩).toNat) :
    exec (.st rA rB) s = .next (faulted s .outOfBounds (some 0x84) (s.reg ⟨rA.toNat, hA⟩).toNat) := by
  rw [exec_st_of_legal hA hB, memWrite_error.mpr ⟨hout, rfl⟩]
  exact conclude_error .st s _

end Rules

/-! ## The obligations -/

/-- Settles O6: the operand check is all that LDI can fail on. -/
theorem ldiLoadsItsImmediate : Obligations.LdiLoadsItsImmediate :=
  fun s _ imm8 => ⟨rfl, exec_ldi_of_legal imm8, exec_first_illegal s rfl⟩

/-- Settles O7: the access decides between the byte it reads and OutOfBounds, after the operand checks. -/
theorem ldLoadsFromTheAddressInRb : Obligations.LdLoadsFromTheAddressInRb :=
  fun s _ _ => ⟨rfl, fun hA hB => ⟨fun _ => exec_ld_of_read hA hB, exec_ld_of_outside hA hB⟩,
    exec_first_illegal s rfl, exec_second_illegal s rfl⟩

/-- Settles O8: inside memory the write exists, and the laws of `Memory.write` say what the memory then reads. -/
theorem stStoresAtTheAddressInRa : Obligations.StStoresAtTheAddressInRa := by
  intro s rA rB
  refine ⟨rfl, fun hA hB => ⟨fun hin => ?_, exec_st_of_outside hA hB⟩,
    exec_first_illegal s rfl, exec_second_illegal s rfl⟩
  obtain ⟨m, hm⟩ := Memory.exists_write_of_lt (s.reg ⟨rB.toNat, hB⟩) hin
  exact ⟨m, exec_st_of_write hA hB hm, Memory.size_of_write hm, Memory.read_of_write_same hm,
    fun _ => Memory.read_of_write_other hm⟩

end Sys2Proof.Machine
end

section
/-!
PRN and PRA (42_output.md R120 to R123): the numeral of a byte is a row of digits, read off the three lengths of
`decimal_cases`; with a legal operand either rule comes to its append, and the operand fault is that of
`exec_first_illegal`.
-/

namespace Sys2Proof.Machine

/-! ## The numeral -/

/-- A code point of a digit, read back as R122 reads it. -/
theorem digit_toNat_sub {d : Nat} (h : d < 10) : (digit d).toNat - 0x30 = d := by
  rw [digit_toNat h, Nat.add_sub_cancel_left]

/-- The digits `ds` spell the byte `v` in base 10, most significant first and with no leading zero (R122). -/
structure Spells (ds : List Nat) (v : Byte) : Prop where
  lt_ten : ∀ d ∈ ds, d < 10
  value : ds.foldl (fun n d => 10 * n + d) 0 = v.toNat
  no_leading_zero : v ≠ 0 → ds.head? ≠ some 0

/-- The numeral is the code points of digits that spell the byte. -/
theorem exists_spells_decimal (v : Byte) : ∃ ds, Spells ds v ∧ decimal v = ds.map digit := by
  have hv : v.toNat < 256 := v.isLt
  rcases decimal_cases v with ⟨h, hd⟩ | ⟨hlo, hhi, hd⟩ | ⟨h, hd⟩
  · refine ⟨[v.toNat], ⟨by simpa using h, by simp, fun hne => ?_⟩, hd⟩
    simpa using BitVec.toNat_ne_iff_ne.mpr hne
  · refine ⟨[v.toNat / 10, v.toNat % 10], ⟨?_, ?_, fun _ => ?_⟩, hd⟩
    · simp only [List.forall_mem_cons, List.not_mem_nil, IsEmpty.forall_iff, implies_true, and_true]; omega
    · simp only [List.foldl_cons, List.foldl_nil]; omega
    · simp only [List.head?_cons, ne_eq, Option.some.injEq]; omega
  · refine ⟨[v.toNat / 100, v.toNat / 10 % 10, v.toNat % 10], ⟨?_, ?_, fun _ => ?_⟩, hd⟩
    · simp only [List.forall_mem_cons, List.not_mem_nil, IsEmpty.forall_iff, implies_true, and_true]; omega
    · simp only [List.foldl_cons, List.foldl_nil]; omega
    · simp only [List.head?_cons, ne_eq, Option.some.injEq]; omega

namespace Spells
variable {ds : List Nat} {v : Byte} (h : Spells ds v)
include h

/-- Read back, the code points give the byte. -/
theorem foldl_map_digit : (ds.map digit).foldl (fun n c => 10 * n + (c.toNat - 0x30)) 0 = v.toNat := by
  rw [List.foldl_map, ← h.value]
  exact List.foldl_ext _ _ _ fun n d hd => by rw [digit_toNat_sub (h.lt_ten d hd)]

/-- The code points of the digits of a non-zero byte do not begin with that of 0. -/
theorem head?_map_digit (hv : v ≠ 0) : (ds.map digit).head? ≠ some 0x30 := by
  intro hhead
  obtain ⟨d, hd, hzero⟩ := Option.map_eq_some_iff.mp (List.head?_map ▸ hhead)
  have hvalue : 0 = d := by simpa [hzero] using digit_toNat_sub (h.lt_ten d (List.mem_of_head? hd))
  exact h.no_leading_zero hv (hvalue ▸ hd)

end Spells

/-- Settles O11: the numeral is a row of digits that spell the byte, and a digit's code point gives it back. -/
theorem decimalNumeralDenotesTheByte : Obligations.DecimalNumeralDenotesTheByte := by
  refine ⟨fun v => ?_, by decide, rfl⟩
  obtain ⟨ds, hds, hdec⟩ := exists_spells_decimal v
  rw [hdec]
  refine ⟨fun c hc => ?_, hds.foldl_map_digit, hds.head?_map_digit⟩
  obtain ⟨d, hd, rfl⟩ := List.mem_map.mp hc
  have hlt := hds.lt_ten d hd
  rw [digit_toNat hlt]
  omega

/-! ## The rules with a legal operand -/

section Rules
variable (s : State) {rA : Byte}

theorem exec_prn_of_legal (hA : rA.toNat < 8) :
    exec (.prn rA) s =
      .next ((s.emit (decimal (s.reg ⟨rA.toNat, hA⟩) ++ [lineTerminator])).setPc (s.pc + 2)) := by
  change execPrn rA s = _
  rw [execPrn, regOperand_ok hA]
  exact conclude_advance .prn s _

theorem exec_pra_of_legal (hA : rA.toNat < 8) :
    exec (.pra rA) s = .next ((s.emit [s.reg ⟨rA.toNat, hA⟩]).setPc (s.pc + 2)) := by
  change execPra rA s = _
  rw [execPra, regOperand_ok hA]
  exact conclude_advance .pra s _

end Rules

/-- Settles O9: the operand check is all that PRN can fail on. -/
theorem prnEmitsNumeralAndLineFeed : Obligations.PrnEmitsNumeralAndLineFeed := by
  refine fun s rA => ⟨rfl, fun hA => ?_, exec_first_illegal s rfl⟩
  rw [exec_prn_of_legal s hA, List.append_assoc]
  rfl

/-- Settles O10: the operand check is all that PRA can fail on. -/
theorem praEmitsTheRegisterByte : Obligations.PraEmitsTheRegisterByte :=
  fun s _ => ⟨rfl, exec_pra_of_legal s, exec_first_illegal s rfl⟩

end Sys2Proof.Machine
end

section
/-!
The ALU (43_alu.md R130 to R141): its results as exact integers reduced modulo 256, and the arithmetic instructions.
With legal operands an instruction is the ALU's answer, a byte or DivideByZero; the operand faults are those of
`exec_first_illegal` and `exec_second_illegal`.
-/

namespace Sys2Proof.Machine

/-! ## Byte arithmetic as exact integers reduced modulo 256 (R131) -/

/-- Narrowing is the non-negative remainder modulo 256 (R14). -/
theorem narrow_toNat (v : Int) : ((narrow v).toNat : Int) = v % 256 := by
  rw [narrow, BitVec.toNat_ofInt]
  exact Int.toNat_of_nonneg (Int.emod_nonneg v (by decide))

theorem toNat_sub_eq_emod (a b : Byte) : ((a - b).toNat : Int) = ((a.toNat : Int) - b.toNat) % 256 := by
  rw [← narrow_sub, narrow_toNat]

theorem ofNat_toNat_add (a b : Byte) : BitVec.ofNat 8 (a.toNat + b.toNat) = a + b := by
  rw [← narrow_natCast, Int.natCast_add, narrow_add]

theorem ofNat_toNat_mul (a b : Byte) : BitVec.ofNat 8 (a.toNat * b.toNat) = a * b := by
  rw [← narrow_natCast, Int.natCast_mul, narrow_mul]

theorem ofNat_toNat_div (a b : Byte) : BitVec.ofNat 8 (a.toNat / b.toNat) = a / b := by
  rw [← narrow_natCast, narrow_div]

theorem div_self_of_ne_zero {b : Byte} (hb : b ≠ 0) : b / b = 1 := by
  simpa [BitVec.udiv_self] using hb

theorem div_eq_zero_of_lt {a b : Byte} (h : a.toNat < b.toNat) : a / b = 0 :=
  BitVec.eq_of_toNat_eq (by rw [BitVec.toNat_udiv, Nat.div_eq_of_lt h]; rfl)

/-! ## The laws of the ALU (R132, R133) -/

theorem alu_div_of_ne_zero (a : Byte) {b : Byte} (hb : b ≠ 0) : alu .div a b = .ok (.byte (a / b)) :=
  alu_div (BitVec.toNat_ne_iff_ne.mpr hb)

theorem alu_cmp (a b : Byte) :
    alu .cmp a b =
      .ok (.flags (decide (a.toNat = b.toNat)) (decide (a.toNat > b.toNat)) (decide (a.toNat < b.toNat))) := rfl

/-- Of equal, greater and less exactly one holds (R133). -/
theorem compare_exactly_one (m n : Nat) :
    (decide (m = n)).toNat + (decide (m > n)).toNat + (decide (m < n)).toNat = 1 := by
  rcases Nat.lt_trichotomy m n with h | h | h
  · simp [h, Nat.ne_of_lt h, Nat.not_lt_of_gt h]
  · simp [h]
  · simp [h, Nat.ne_of_gt h, Nat.not_lt_of_gt h]

/-- Settles O12: the ALU's bytes are the byte operations, and those are the exact results modulo 256; CMP compares
the unsigned values, which are equal only for equal bytes. -/
theorem aluLawsOnUnsignedBytes : Obligations.AluLawsOnUnsignedBytes := by
  intro a b
  refine ⟨⟨_, alu_add a b, BitVec.toNat_add a b⟩, ⟨_, alu_sub a b, toNat_sub_eq_emod a b⟩,
    ⟨_, alu_mul a b, BitVec.toNat_mul a b⟩, ⟨_, alu_inc a b, BitVec.toNat_add a 1⟩,
    ⟨_, alu_dec a b, toNat_sub_eq_emod a 1⟩, fun hb => ?division, alu_div_zero rfl, ?comparison, fun _ => rfl⟩
  case division =>
    refine ⟨_, alu_div_of_ne_zero a hb, BitVec.toNat_udiv, ?atMost, ?byOne, ?bySelf, div_eq_zero_of_lt⟩
    case atMost => rw [BitVec.toNat_udiv]; exact Nat.div_le_self _ _
    case byOne => rintro rfl; exact BitVec.udiv_one
    case bySelf => rintro rfl; exact div_self_of_ne_zero hb
  case comparison =>
    have hequal : decide (a.toNat = b.toNat) = true ↔ a = b := by rw [decide_eq_true_iff, BitVec.toNat_inj]
    exact ⟨_, _, _, alu_cmp a b, hequal, decide_eq_true_iff, decide_eq_true_iff, compare_exactly_one _ _⟩

/-! ## The rules with legal operands -/

section Rules
variable {s : State} {rA rB v : Byte} {m : Mnemonic} {op : AluOp}

/-- A byte the ALU answers goes to the first register, and PC advances. -/
theorem conclude_aluApply_of_byte {d e : Fin 8} (h : alu op (s.reg d) (s.reg e) = .ok (.byte v)) :
    conclude m s (aluApply op d e s) = .next ((s.setReg d v).setPc (s.pc + BitVec.ofNat 8 m.length)) := by
  rw [aluApply, h]
  exact conclude_advance m s _

/-- A division the ALU has no value for halts with the divisor's register index (R205). -/
theorem conclude_aluApply_of_divideByZero {d e : Fin 8}
    (h : alu op (s.reg d) (s.reg e) = .error .divideByZero) :
    conclude m s (aluApply op d e s) = .next (faulted s .divideByZero (some m.opcode) e) := by
  rw [aluApply, h]
  exact conclude_error m s _

theorem aluBinary_of_legal (hA : rA.toNat < 8) (hB : rB.toNat < 8) :
    aluBinary op rA rB s = aluApply op ⟨rA.toNat, hA⟩ ⟨rB.toNat, hB⟩ s := by
  rw [aluBinary, regOperands_ok hA hB, ok_bind]

theorem aluUnary_of_legal (hA : rA.toNat < 8) :
    aluUnary op rA s = aluApply op ⟨rA.toNat, hA⟩ ⟨rA.toNat, hA⟩ s := by
  rw [aluUnary, regOperand_ok hA, ok_bind]

theorem exec_add_of_legal (hA : rA.toNat < 8) (hB : rB.toNat < 8) :
    exec (.add rA rB) s = .next ((s.setReg ⟨rA.toNat, hA⟩
      (BitVec.ofNat 8 ((s.reg ⟨rA.toNat, hA⟩).toNat + (s.reg ⟨rB.toNat, hB⟩).toNat))).setPc (s.pc + 3)) := by
  change execAdd rA rB s = _
  rw [execAdd, aluBinary_of_legal hA hB, ofNat_toNat_add]
  exact conclude_aluApply_of_byte (alu_add _ _)

theorem exec_sub_of_legal (hA : rA.toNat < 8) (hB : rB.toNat < 8) :
    exec (.sub rA rB) s = .next ((s.setReg ⟨rA.toNat, hA⟩
      (narrow ((s.reg ⟨rA.toNat, hA⟩).toNat - (s.reg ⟨rB.toNat, hB⟩).toNat))).setPc (s.pc + 3)) := by
  change execSub rA rB s = _
  rw [execSub, aluBinary_of_legal hA hB, narrow_sub]
  exact conclude_aluApply_of_byte (alu_sub _ _)

theorem exec_mul_of_legal (hA : rA.toNat < 8) (hB : rB.toNat < 8) :
    exec (.mul rA rB) s = .next ((s.setReg ⟨rA.toNat, hA⟩
      (BitVec.ofNat 8 ((s.reg ⟨rA.toNat, hA⟩).toNat * (s.reg ⟨rB.toNat, hB⟩).toNat))).setPc (s.pc + 3)) := by
  change execMul rA rB s = _
  rw [execMul, aluBinary_of_legal hA hB, ofNat_toNat_mul]
  exact conclude_aluApply_of_byte (alu_mul _ _)

theorem exec_div_of_ne_zero (hA : rA.toNat < 8) (hB : rB.toNat < 8) (h : s.reg ⟨rB.toNat, hB⟩ ≠ 0) :
    exec (.div rA rB) s = .next ((s.setReg ⟨rA.toNat, hA⟩
      (BitVec.ofNat 8 ((s.reg ⟨rA.toNat, hA⟩).toNat / (s.reg ⟨rB.toNat, hB⟩).toNat))).setPc (s.pc + 3)) := by
  change execDiv rA rB s = _
  rw [execDiv, aluBinary_of_legal hA hB, ofNat_toNat_div]
  exact conclude_aluApply_of_byte (alu_div_of_ne_zero _ h)

theorem exec_div_of_zero (hA : rA.toNat < 8) (hB : rB.toNat < 8) (h : s.reg ⟨rB.toNat, hB⟩ = 0) :
    exec (.div rA rB) s = .next (faulted s .divideByZero (some 0xA3) rB.toNat) := by
  change execDiv rA rB s = _
  rw [execDiv, aluBinary_of_legal hA hB]
  exact conclude_aluApply_of_divideByZero (alu_div_zero (congrArg BitVec.toNat h))

theorem exec_inc_of_legal (hA : rA.toNat < 8) :
    exec (.inc rA) s = .next ((s.setReg ⟨rA.toNat, hA⟩
      (BitVec.ofNat 8 ((s.reg ⟨rA.toNat, hA⟩).toNat + 1))).setPc (s.pc + 2)) := by
  change execInc rA s = _
  rw [execInc, aluUnary_of_legal hA, conclude_aluApply_of_byte (alu_inc _ _), ← ofNat_toNat_add]
  rfl

theorem exec_dec_of_legal (hA : rA.toNat < 8) :
    exec (.dec rA) s = .next ((s.setReg ⟨rA.toNat, hA⟩
      (narrow ((s.reg ⟨rA.toNat, hA⟩).toNat - 1))).setPc (s.pc + 2)) := by
  change execDec rA s = _
  rw [execDec, aluUnary_of_legal hA, narrow_toNat_sub_one]
  exact conclude_aluApply_of_byte (alu_dec _ _)

end Rules

/-! ## The instructions -/

/-- Settles O13: the ALU always has a byte for ADD, SUB and MUL, so the operand checks are all they can fail on. -/
theorem addSubMulResultsModulo256 : Obligations.AddSubMulResultsModulo256 :=
  fun s _ _ => ⟨rfl, rfl, rfl,
    fun hA hB => ⟨exec_add_of_legal hA hB, exec_sub_of_legal hA hB, exec_mul_of_legal hA hB⟩,
    fun hA => ⟨exec_first_illegal s rfl hA, exec_first_illegal s rfl hA, exec_first_illegal s rfl hA⟩,
    fun hA hB => ⟨exec_second_illegal s rfl hA hB, exec_second_illegal s rfl hA hB,
      exec_second_illegal s rfl hA hB⟩⟩

/-- Settles O14: after the operand checks the divisor decides between the quotient and DivideByZero. -/
theorem divTruncatesOrHaltsOnZero : Obligations.DivTruncatesOrHaltsOnZero :=
  fun s _ _ => ⟨rfl, fun hA hB => ⟨exec_div_of_ne_zero hA hB, exec_div_of_zero hA hB⟩,
    exec_first_illegal s rfl, exec_second_illegal s rfl⟩

/-- Settles O15: the operand check is all that INC and DEC can fail on. -/
theorem incAndDecModulo256 : Obligations.IncAndDecModulo256 :=
  fun s _ => ⟨rfl, rfl, fun hA => ⟨exec_inc_of_legal hA, exec_dec_of_legal hA⟩,
    fun hA => ⟨exec_first_illegal s rfl hA, exec_first_illegal s rfl hA⟩⟩

end Sys2Proof.Machine
end

section
/-!
PUSH and POP (44_stack.md R160, R161): with a legal operand either rule comes to the stack manager's operation,
which SP decides between its access and OutOfBounds; the operand fault is that of `exec_first_illegal`.
-/

namespace Sys2Proof.Machine

/-- With the slot below SP in memory `Push` succeeds, and stores its value in that slot and nowhere else (R58). -/
theorem exists_push_of_lt {s : State} (v : Byte) (hin : (s.sp - 1).toNat < s.mem.size) :
    ∃ m : Memory, push s v = .ok ((s.setSp (s.sp - 1)).setMem m) ∧ m.size = s.mem.size ∧
      m.read (s.sp - 1).toNat = some v ∧ ∀ a ≠ (s.sp - 1).toNat, m.read a = s.mem.read a := by
  obtain ⟨m, hm⟩ := Memory.exists_write_of_lt v hin
  exact ⟨m, push_ok.mpr ⟨m, hm, rfl⟩, Memory.size_of_write hm, Memory.read_of_write_same hm,
    fun _ => Memory.read_of_write_other hm⟩

section Rules
variable {s : State} {rA : Byte}

/-! ## The rules with a legal operand -/

theorem exec_push_of_legal (hA : rA.toNat < 8) :
    exec (.push rA) s = conclude .push s (push s (s.reg ⟨rA.toNat, hA⟩) >>= fun t => .ok (.advance t)) := by
  change execPush rA s = _
  rw [execPush, regOperand_ok hA]
  rfl

theorem exec_pop_of_legal (hA : rA.toNat < 8) :
    exec (.pop rA) s = conclude .pop s
      (pop s >>= fun p => .ok (.advance (p.2.setReg ⟨rA.toNat, hA⟩ p.1))) := by
  change execPop rA s = _
  rw [execPop, regOperand_ok hA]
  rfl

/-! ## The slot inside memory, and outside it -/

theorem exec_push_of_ok {t : State} (hA : rA.toNat < 8) (hpush : push s (s.reg ⟨rA.toNat, hA⟩) = .ok t) :
    exec (.push rA) s = .next (t.setPc (s.pc + 2)) := by
  rw [exec_push_of_legal hA, hpush]
  exact conclude_advance .push s t

theorem exec_push_of_outside (hA : rA.toNat < 8) (hout : s.mem.size ≤ (s.sp - 1).toNat) :
    exec (.push rA) s = .next (faulted s .outOfBounds (some 0x45) (s.sp - 1).toNat) := by
  rw [exec_push_of_legal hA, push_error.mpr ⟨hout, rfl⟩]
  exact conclude_error .push s _

theorem exec_pop_of_read {v : Byte} (hA : rA.toNat < 8) (hread : s.mem.read s.sp.toNat = some v) :
    exec (.pop rA) s = .next (((s.setSp (s.sp + 1)).setReg ⟨rA.toNat, hA⟩ v).setPc (s.pc + 2)) := by
  rw [exec_pop_of_legal hA, pop_ok.mpr ⟨hread, rfl⟩]
  exact conclude_advance .pop s _

theorem exec_pop_of_outside (hA : rA.toNat < 8) (hout : s.mem.size ≤ s.sp.toNat) :
    exec (.pop rA) s = .next (faulted s .outOfBounds (some 0x46) s.sp.toNat) := by
  rw [exec_pop_of_legal hA, pop_error.mpr ⟨hout, rfl⟩]
  exact conclude_error .pop s _

end Rules

/-! ## The instructions -/

/-- Settles O18: after the operand check the slot below SP decides between the store and OutOfBounds. -/
theorem pushDecrementsSpAndStores : Obligations.PushDecrementsSpAndStores := by
  intro s rA
  refine ⟨rfl, fun hA => ⟨fun hin => ?_, exec_push_of_outside hA⟩, exec_first_illegal s rfl⟩
  obtain ⟨m, hpush, hstored⟩ := exists_push_of_lt (s.reg ⟨rA.toNat, hA⟩) hin
  exact ⟨m, exec_push_of_ok hA hpush, hstored⟩

/-- Settles O19: after the operand check the byte at SP decides between the read and OutOfBounds. -/
theorem popReadsAtSpAndIncrements : Obligations.PopReadsAtSpAndIncrements :=
  fun s _ => ⟨rfl, fun hA => ⟨fun _ => exec_pop_of_read hA, exec_pop_of_outside hA⟩, exec_first_illegal s rfl⟩

end Sys2Proof.Machine
end

section
/-!
CALL, RET, JMP, JEQ and JNE (45_control.md R170 to R174): with a legal operand each rule sets PC, CALL and RET by way
of the stack manager, JEQ and JNE by the value of bit 0 of FL; the operand fault is that of `exec_first_illegal`.
-/

namespace Sys2Proof.Machine

section Rules
variable {s : State} {rA : Byte}

/-! ## CALL and RET -/

theorem exec_call_of_legal (hA : rA.toNat < 8) :
    exec (.call rA) s = conclude .call s
      (push s (s.pc + 2) >>= fun t => .ok (.redirect (t.setPc (s.reg ⟨rA.toNat, hA⟩)))) := by
  have hret : narrow (s.pc.toNat + Mnemonic.call.length) = s.pc + 2 := narrow_toNat_add s.pc 2
  change execCall rA s = _
  rw [execCall, regOperand_ok hA, hret]
  rfl

theorem exec_call_of_ok {t : State} (hA : rA.toNat < 8) (hpush : push s (s.pc + 2) = .ok t) :
    exec (.call rA) s = .next (t.setPc (s.reg ⟨rA.toNat, hA⟩)) := by
  rw [exec_call_of_legal hA, hpush]
  exact conclude_redirect .call s _

theorem exec_call_of_outside (hA : rA.toNat < 8) (hout : s.mem.size ≤ (s.sp - 1).toNat) :
    exec (.call rA) s = .next (faulted s .outOfBounds (some 0x50) (s.sp - 1).toNat) := by
  rw [exec_call_of_legal hA, push_error.mpr ⟨hout, rfl⟩]
  exact conclude_error .call s _

theorem exec_ret_of_read {v : Byte} (hread : s.mem.read s.sp.toNat = some v) :
    exec .ret s = .next ((s.setSp (s.sp + 1)).setPc v) := by
  change execRet s = _
  rw [execRet, pop_ok.mpr ⟨hread, rfl⟩]
  exact conclude_redirect .ret s _

theorem exec_ret_of_outside (hout : s.mem.size ≤ s.sp.toNat) :
    exec .ret s = .next (faulted s .outOfBounds (some 0x11) s.sp.toNat) := by
  change execRet s = _
  rw [execRet, pop_error.mpr ⟨hout, rfl⟩]
  exact conclude_error .ret s _

/-! ## The jumps -/

theorem exec_jmp_of_legal (hA : rA.toNat < 8) :
    exec (.jmp rA) s = .next (s.setPc (s.reg ⟨rA.toNat, hA⟩)) := by
  change execJmp rA s = _
  rw [execJmp, regOperand_ok hA]
  exact conclude_redirect .jmp s _

/-- A jump with a condition goes to the register, or on to the next instruction. -/
theorem conclude_jumpIf_of_legal (m : Mnemonic) (taken : Bool) (hA : rA.toNat < 8) :
    conclude m s (jumpIf taken rA s) =
      .next (s.setPc (if taken then s.reg ⟨rA.toNat, hA⟩ else s.pc + BitVec.ofNat 8 m.length)) := by
  rw [jumpIf, regOperand_ok hA]
  cases taken with
  | true => exact conclude_redirect m s _
  | false => exact conclude_advance m s s

theorem exec_jeq_of_legal (hA : rA.toNat < 8) :
    exec (.jeq rA) s = .next (s.setPc (if s.fl &&& 1 = 1 then s.reg ⟨rA.toNat, hA⟩ else s.pc + 2)) := by
  change execJeq rA s = _
  rw [execJeq, conclude_jumpIf_of_legal .jeq _ hA, getFlag_flagE]
  simp only [decide_eq_true_eq]
  rfl

theorem exec_jne_of_legal (hA : rA.toNat < 8) :
    exec (.jne rA) s = .next (s.setPc (if s.fl &&& 1 = 1 then s.pc + 2 else s.reg ⟨rA.toNat, hA⟩)) := by
  change execJne rA s = _
  rw [execJne, conclude_jumpIf_of_legal .jne _ hA, getFlag_flagE]
  simp only [Bool.not_eq_true', decide_eq_false_iff_not, ite_not]
  rfl

end Rules

/-! ## The instructions -/

/-- Settles O21: after the operand check the slot below SP decides between the jump and OutOfBounds. -/
theorem callPushesReturnAndJumps : Obligations.CallPushesReturnAndJumps := by
  intro s rA
  refine ⟨rfl, fun hA => ⟨fun hin => ?_, exec_call_of_outside hA⟩, exec_first_illegal s rfl⟩
  obtain ⟨m, hpush, hstored⟩ := exists_push_of_lt (s.pc + 2) hin
  exact ⟨m, exec_call_of_ok hA hpush, hstored⟩

/-- Settles O22: the byte at SP decides between the return and OutOfBounds. -/
theorem retPopsThePc : Obligations.RetPopsThePc :=
  fun _ => ⟨rfl, fun _ => exec_ret_of_read, exec_ret_of_outside⟩

/-- Settles O23: the operand check is all that JMP can fail on. -/
theorem jmpGoesToTheRegister : Obligations.JmpGoesToTheRegister :=
  fun s _ => ⟨rfl, exec_jmp_of_legal, exec_first_illegal s rfl⟩

/-- Settles O24: the operand check comes first, then bit 0 of FL picks the branch of `exec_jeq_of_legal`. -/
theorem jeqJumpsOnEqual : Obligations.JeqJumpsOnEqual := by
  refine fun s rA => ⟨rfl, fun hA => ?_, exec_first_illegal s rfl⟩
  rw [exec_jeq_of_legal hA]
  refine ⟨fun hE => ?_, fun hE => ?_⟩
  · rw [hE, if_pos rfl]; rfl
  · rw [hE, if_neg (by decide)]; rfl

/-- Settles O25: the operand check comes first, then bit 0 of FL picks the branch of `exec_jne_of_legal`. -/
theorem jneJumpsOnNotEqual : Obligations.JneJumpsOnNotEqual := by
  refine fun s rA => ⟨rfl, fun hA => ?_, exec_first_illegal s rfl⟩
  rw [exec_jne_of_legal hA]
  refine ⟨fun hE => ?_, fun hE => ?_⟩
  · rw [hE, if_neg (by decide)]; rfl
  · rw [hE, if_pos rfl]; rfl

end Sys2Proof.Machine
end

section
/-!
INT and IRET (46_interrupt.md R190, R191): INT sets one bit of IS, or raises a fault of its own for a line that does
not exist; IRET is nine pops, so the first of the nine bytes outside memory is its fault.
-/

namespace Sys2Proof.Machine

/-! ## INT -/

section IntRules
variable {s : State} {rA : Byte}

theorem exec_int_of_line (hA : rA.toNat < 8) (hn : (s.reg ⟨rA.toNat, hA⟩).toNat < 8) :
    exec (.int rA) s =
      .next ((s.setIs (s.is ||| BitVec.ofNat 8 (2 ^ (s.reg ⟨rA.toNat, hA⟩).toNat))).setPc (s.pc + 2)) := by
  change execInt rA s = _
  rw [execInt, regOperand_ok hA, ok_bind, if_pos hn, one_shiftLeft]
  exact conclude_advance .int s _

theorem exec_int_of_no_line (hA : rA.toNat < 8) (hn : 7 < (s.reg ⟨rA.toNat, hA⟩).toNat) :
    exec (.int rA) s =
      .next (faulted s .invalidInterruptLine (some 0x52) (s.reg ⟨rA.toNat, hA⟩).toNat) := by
  change execInt rA s = _
  rw [execInt, regOperand_ok hA, ok_bind, if_neg (Nat.not_lt.mpr hn)]
  exact conclude_error .int s _

end IntRules

/-- Settles O27: after the operand check the line decides between the bit of IS and InvalidInterruptLine. -/
theorem intSetsOneStatusBit : Obligations.IntSetsOneStatusBit :=
  fun s _ => ⟨rfl, fun hA => ⟨exec_int_of_line hA, exec_int_of_no_line hA⟩, exec_first_illegal s rfl⟩

/-! ## The pops of IRET -/

theorem add_one_add_ofNat (a : Byte) (k : Nat) : a + 1 + BitVec.ofNat 8 k = a + BitVec.ofNat 8 (k + 1) := by
  rw [BitVec.add_assoc, Nat.add_comm k 1, BitVec.ofNat_add]
  rfl

section IretRules
variable {s : State}

theorem popRegs_cons_of_read {i : Fin 8} {v : Byte} (rest : List (Fin 8))
    (hread : s.mem.read s.sp.toNat = some v) :
    popRegs (i :: rest) s = popRegs rest ((s.setSp (s.sp + 1)).setReg i v) := by
  rw [popRegs, pop_ok.mpr ⟨hread, rfl⟩]
  rfl

/-- Popping registers whose values in `x` lie from SP on, in that order, leaves `x`, when the other registers hold
their values in `x` already. -/
theorem popRegs_of_reads {is : List (Fin 8)} {x : Vector Byte 8} (hkept : ∀ i ∉ is, s.reg i = x[i])
    (hreads : ∀ k (hk : k < is.length), s.mem.read (s.sp + BitVec.ofNat 8 k).toNat = some x[is[k]]) :
    popRegs is s = .ok { s with regs := x, sp := s.sp + BitVec.ofNat 8 is.length } := by
  induction is generalizing s with
  | nil =>
    have hregs : s.regs = x := regs_ext fun i => hkept i List.not_mem_nil
    rw [← hregs, List.length_nil, BitVec.add_zero]
    rfl
  | cons i rest ih =>
    have hread : s.mem.read s.sp.toNat = some x[i] := by simpa using hreads 0 (Nat.succ_pos _)
    rw [popRegs_cons_of_read rest hread, ih, List.length_cons, ← add_one_add_ofNat]
    · rfl
    · intro j hj
      by_cases hji : j = i
      · rw [hji, State.setReg_reg_same]
      · rw [State.setReg_reg_other _ _ hji]
        exact hkept j (by simp [hji, hj])
    · exact fun k hk => add_one_add_ofNat s.sp k ▸ hreads (k + 1) (Nat.succ_lt_succ hk)

/-- Of the pops of some registers and of one byte more, the first outside memory is the fault. -/
theorem popRegs_pop_of_outside {is : List (Fin 8)} {k : Nat} (f : Byte × State → Except Raise Flow)
    (hk : k ≤ is.length) (hin : ∀ j < k, (s.sp + BitVec.ofNat 8 j).toNat < s.mem.size)
    (hout : s.mem.size ≤ (s.sp + BitVec.ofNat 8 k).toNat) :
    (popRegs is s >>= fun t => pop t >>= f) =
      .error { code := .outOfBounds, detail := (s.sp + BitVec.ofNat 8 k).toNat } := by
  induction k generalizing s is with
  | zero =>
    rw [BitVec.add_zero] at hout ⊢
    have hpop := pop_error.mpr ⟨hout, rfl⟩
    cases is with
    | nil => rw [popRegs, ok_bind, hpop, error_bind]
    | cons i rest => rw [popRegs, hpop, error_bind, error_bind]
  | succ k ih =>
    cases is with
    | nil => exact absurd hk (Nat.not_succ_le_zero k)
    | cons i rest =>
      have hsp : s.sp.toNat < s.mem.size := by simpa using hin 0 (Nat.succ_pos k)
      rw [← add_one_add_ofNat] at hout ⊢
      rw [popRegs_cons_of_read rest (Memory.read_of_lt hsp)]
      exact ih (Nat.le_of_succ_le_succ hk)
        (fun j hj => add_one_add_ofNat s.sp j ▸ hin (j + 1) (Nat.succ_lt_succ hj)) hout

/-! ## IRET -/

/-- IRET over a frame that holds the registers as in `x`, R7 first, and then the resume address `v`. -/
theorem exec_iret_of_reads {x : Vector Byte 8} {v : Byte}
    (hregs : ∀ k (hk : k < iretOrder.length),
      s.mem.read (s.sp + BitVec.ofNat 8 k).toNat = some x[iretOrder[k]])
    (hpc : s.mem.read (s.sp + 8).toNat = some v) :
    exec .iret s = .next { s with regs := x, pc := v, sp := s.sp + 9 } := by
  have hall : ∀ i, i ∈ iretOrder := by decide
  have hpops : popRegs iretOrder s = .ok { s with regs := x, sp := s.sp + 8 } :=
    popRegs_of_reads (fun i hi => absurd (hall i) hi) hregs
  have hsp : s.sp + 8 + 1 = s.sp + 9 := BitVec.add_assoc s.sp 8 1
  change execIret s = _
  rw [execIret, hpops, ok_bind, pop_ok.mpr ⟨hpc, rfl⟩, ← hsp]
  exact conclude_redirect .iret s _

theorem exec_iret_of_outside {k : Nat} (hk : k < 9)
    (hin : ∀ j < k, (s.sp + BitVec.ofNat 8 j).toNat < s.mem.size)
    (hout : s.mem.size ≤ (s.sp + BitVec.ofNat 8 k).toNat) :
    exec .iret s = .next (faulted s .outOfBounds (some 0x13) (s.sp + BitVec.ofNat 8 k).toNat) := by
  change execIret s = _
  rw [execIret, popRegs_pop_of_outside _ (Nat.le_of_lt_succ hk) hin hout]
  exact conclude_error .iret s _

end IretRules

/-- Settles O28: each of the nine pops decides between its byte and OutOfBounds. -/
theorem iretRestoresNineBytes : Obligations.IretRestoresNineBytes := by
  refine fun s => ⟨rfl, fun b0 b1 b2 b3 b4 b5 b6 b7 b8 h0 h1 h2 h3 h4 h5 h6 h7 h8 => ?_,
    fun _ => exec_iret_of_outside⟩
  refine exec_iret_of_reads (fun k hk => ?_) h8
  change k < 8 at hk
  interval_cases k
  · rw [BitVec.add_zero]; exact h0
  exacts [h1, h2, h3, h4, h5, h6, h7]

end Sys2Proof.Machine
end

section
/-!
The tick that halts (60_exceptions.md R201, R206): whether the fetch faults or the instruction halts, the state is
the one before the tick with a cause entered, and that cause names the byte at PC and is never UnknownALUOp.
-/

namespace Sys2Proof.Machine

/-- An instruction that halts a Running machine only enters Halted, with its own address and opcode in the cause. -/
theorem exec_halted_cause {i : Instr} {s t : State} (h : exec i s = .next t) (hrun : s.run = .running)
    (hhalt : t.run = .halted) :
    ∃ c : HaltCause, t = s.halt c ∧ c.pc = s.pc ∧ c.op = some i.mnemonic.opcode ∧ c.code ≠ .unknownAluOp := by
  rcases exec_halted_cases h hrun hhalt with ⟨e, hcode, _, ht⟩ | ⟨_, ht⟩
  · exact ⟨_, ht, rfl, rfl, hcode⟩
  · exact ⟨_, ht, rfl, rfl, nofun⟩

/-- A tick that halts a Running machine only enters Halted, with PC and the byte there in the cause. -/
theorem step_halted_cause {s t : State} (hrun : s.run = .running) (h : step s = .next t) (hhalt : t.run = .halted) :
    ∃ c : HaltCause, t = s.halt c ∧ c.pc = s.pc ∧ c.op = s.mem.read s.pc.toNat ∧ c.code ≠ .unknownAluOp := by
  rcases step_cases h with
    ⟨hhalted, _⟩ | ⟨_, hout, ht⟩ | ⟨op, _, hop, _, ht⟩ | ⟨m, k, _, hop, _, _, _, ht⟩ | ⟨i, _, hbytes, hexec⟩
  · cases hrun.symm.trans hhalted
  · exact ⟨_, ht, rfl, (Memory.read_eq_none.mpr hout).symm, nofun⟩
  · exact ⟨_, ht, rfl, hop.symm, nofun⟩
  · exact ⟨_, ht, rfl, hop.symm, nofun⟩
  · have hop : s.mem.read s.pc.toNat = some i.mnemonic.opcode := hbytes 0 (Nat.succ_pos _)
    rw [hop]
    exact exec_halted_cause hexec hrun hhalt

/-- Settles O37: the halting tick only enters Halted (`step_halted_cause`), and a Halted machine stays as it is. -/
theorem haltingTickChangesNothingElse : Obligations.HaltingTickChangesNothingElse := by
  intro s t hrun h hhalt
  obtain ⟨c, ht, hpc, hop, _⟩ := step_halted_cause hrun h hhalt
  exact ⟨c, ht, hpc, hop, step_of_halted hhalt⟩

/-- Settles O38: the cause that a halting tick enters has another code (`step_halted_cause`). -/
theorem unknownAluOpIsNeverRaised : Obligations.UnknownAluOpIsNeverRaised := by
  refine ⟨fun _ _ _ => rfl, fun s t c hrun h hhalt hcause => ?_⟩
  obtain ⟨c', rfl, _, _, hcode⟩ := step_halted_cause hrun h hhalt
  obtain rfl : c' = c := Option.some.inj hcause
  exact hcode

end Sys2Proof.Machine
end

section
/-!
The encoding both ways (30_encoding.md sections 1 and 2). One fact carries it: the decoder answers `i` exactly when
the bytes it is given begin with the encoding of `i` (`decodeWith_eq_ok`). The round trips and the tick of an
instruction that lies at PC follow.
-/

namespace Sys2Proof

/-- An instruction is its mnemonic and its operand bytes. -/
theorem instr_of_mnemonic_operands (i : Instr) :
    i.mnemonic.instr (i.operands[0]?.getD 0) (i.operands[1]?.getD 0) = i := by
  cases i <;> rfl

theorem encode_inj {i j : Instr} (h : encode i = encode j) : i = j := by
  obtain ⟨hop, hoperands⟩ := List.cons.inj h
  rw [← instr_of_mnemonic_operands i, ← instr_of_mnemonic_operands j, opcode_inj hop, hoperands]

/-- The bytes that `byte` gives begin with the encoding of `i`. -/
def beginsWith (byte : Nat → Option Byte) (i : Instr) : Prop :=
  ∀ k < (encode i).length, byte k = (encode i)[k]?

theorem beginsWith_of_decodeWith {byte : Nat → Option Byte} {i : Instr} (h : decodeWith byte = .ok i) :
    beginsWith byte i := by
  rcases decodeWith_cases byte with ⟨_, he⟩ | ⟨_, _, _, he⟩ | ⟨_, _, _, _, he⟩ | ⟨_, _, _, _, _, he⟩ | ⟨j, hj, he⟩
  case inr.inr.inr.inr => exact Except.ok.inj (he.symm.trans h) ▸ hj
  all_goals cases he.symm.trans h

/-- Bytes that begin with two encodings begin with the same one: the opcode fixes the length. -/
theorem eq_of_beginsWith {byte : Nat → Option Byte} {i j : Instr} (hi : beginsWith byte i) (hj : beginsWith byte j)
    (hm : i.mnemonic = j.mnemonic) : i = j := by
  have hlen : (encode i).length = (encode j).length := by rw [length_encode, length_encode, hm]
  refine encode_inj (List.ext_getElem? fun k => ?_)
  rcases Nat.lt_or_ge k (encode i).length with hk | hk
  · rw [← hi k hk, hj k (hlen ▸ hk)]
  · rw [List.getElem?_eq_none hk, List.getElem?_eq_none (hlen ▸ hk)]

theorem decodeWith_of_beginsWith {byte : Nat → Option Byte} {i : Instr} (h : beginsWith byte i) :
    decodeWith byte = .ok i := by
  have hall : ∀ k < i.mnemonic.length, byte k ≠ none := fun k hk => by
    rw [← length_encode] at hk
    simp [h k hk, hk]
  obtain ⟨j, hm, hd⟩ := decodeWith_whole (h 0 (Nat.succ_pos _)) hall
  rw [hd, eq_of_beginsWith (beginsWith_of_decodeWith hd) h hm]

theorem decodeWith_eq_ok {byte : Nat → Option Byte} {i : Instr} : decodeWith byte = .ok i ↔ beginsWith byte i :=
  ⟨beginsWith_of_decodeWith, decodeWith_of_beginsWith⟩

/-- A list of bytes begins with an encoding exactly when it is that encoding and what is left after it. -/
theorem beginsWith_getElem? {bs : List Byte} {i : Instr} :
    beginsWith (fun k => bs[k]?) i ↔ bs = encode i ++ bs.drop (encode i).length := by
  constructor
  case mp =>
    intro h
    have htake : bs.take (encode i).length = encode i := by
      refine List.ext_getElem? fun k => ?_
      rw [List.getElem?_take]
      split
      · next hk => exact h k hk
      · next hk => exact (List.getElem?_eq_none (Nat.not_lt.mp hk)).symm
    conv_lhs => rw [← List.take_append_drop (encode i).length bs, htake]
  case mpr =>
    intro h k hk
    change bs[k]? = _
    rw [h, List.getElem?_append_left hk]

/-- Decoding a list of bytes is splitting an encoding off its front. -/
theorem decode_eq_ok {bs rest : List Byte} {i : Instr} : decode bs = .ok (i, rest) ↔ bs = encode i ++ rest := by
  constructor
  case mp =>
    intro h
    cases hd : decodeWith (fun k => bs[k]?) with
    | error e => simp [decode, hd] at h
    | ok j =>
      obtain ⟨rfl, rfl⟩ : j = i ∧ bs.drop j.mnemonic.length = rest := by simpa [decode, hd] using h
      rw [← length_encode]
      exact beginsWith_getElem?.mp (decodeWith_eq_ok.mp hd)
  case mpr =>
    rintro rfl
    have hd : decodeWith (fun k => (encode i ++ rest)[k]?) = .ok i :=
      decodeWith_eq_ok.mpr fun k => List.getElem?_append_left
    simp [decode, hd, ← length_encode]

/-- Settles O53: an encoding splits off the bytes that begin with it. -/
theorem decodeOfEncodeIsTheInstruction : Obligations.DecodeOfEncodeIsTheInstruction :=
  fun _ _ => decode_eq_ok.mpr rfl

/-- Settles O54: what the decoder splits off is the encoding of its answer. -/
theorem decodedBytesAreTheEncoding : Obligations.DecodedBytesAreTheEncoding :=
  fun _ _ _ => decode_eq_ok.mp

/-- Settles O55: each word is the encoding of its instruction, with no bytes after it. -/
theorem writtenOutWordsDecode : Obligations.WrittenOutWordsDecode :=
  ⟨decode_eq_ok.mpr rfl, decode_eq_ok.mpr rfl, decode_eq_ok.mpr rfl, decode_eq_ok.mpr rfl, decode_eq_ok.mpr rfl,
    decode_eq_ok.mpr rfl, decode_eq_ok.mpr rfl⟩

end Sys2Proof

namespace Sys2Proof.Machine

/-- The tick of a Running machine with an encoding at PC is the execution of that instruction (R79). -/
theorem step_of_encode_at_pc {s : State} {i : Instr} (hrun : s.run = .running)
    (hbytes : ∀ k < (encode i).length, s.mem.read (s.pc.toNat + k) = (encode i)[k]?) : step s = exec i s :=
  step_of_fetch_ok hrun (decodeWith_eq_ok.mpr hbytes)

/-- Settles O30: the bytes that decode begin with the instruction's encoding, and so does memory at PC. -/
theorem stepRunsTheDecodedInstruction : Obligations.StepRunsTheDecodedInstruction := by
  intro s bs i rest hrun hbytes hdecode
  obtain rfl := decode_eq_ok.mp hdecode
  refine step_of_encode_at_pc hrun fun k hk => ?_
  have hk' : k < (encode i ++ rest).length := by rw [List.length_append]; exact Nat.lt_add_right _ hk
  rw [hbytes k hk', List.getElem?_append_left hk]

end Sys2Proof.Machine
end

section
/-!
The invariant of the machine (10_state.md sections 4 and 7, 20_memory.md section 1, 60_exceptions.md section 1): a
case split over what an instruction (`exec_effect`) and a tick (`step_cases`) can do.
-/

namespace Sys2Proof.Machine

/-! ## Halting keeps the invariant -/

theorem coreInv_halt {s : State} {c : HaltCause} (hs : CoreInv s) (hpc : c.pc = s.pc)
    (hop : c.op = none → c.code = .outOfBounds) (hdetail : c.detail = none ↔ c.code = .hlt)
    (hcode : c.code ≠ .unknownAluOp) : CoreInv (s.halt c) := by
  obtain ⟨hmem, hfl, _⟩ := hs
  exact ⟨hmem, hfl, .inr ⟨rfl, c, rfl, hpc, hop, hdetail, hcode⟩⟩

/-- A fault keeps the invariant: it has a detail, so only its code and its opcode are in question. -/
theorem coreInv_faulted {s : State} {code : HaltCode} {op : Option Byte} {detail : Nat} (hs : CoreInv s)
    (hop : op = none → code = .outOfBounds) (hcode : code ≠ .hlt ∧ code ≠ .unknownAluOp) :
    CoreInv (faulted s code op detail) := by
  obtain ⟨hhlt, halu⟩ := hcode
  exact coreInv_halt hs rfl hop ⟨nofun, fun h => absurd h hhlt⟩ halu

/-! ## An instruction and a tick keep it -/

/-- An instruction of a Running machine keeps the invariant. Only a store, PUSH and CALL write memory, by the
canonical write; only CMP writes FL; only a fault and HLT enter a cause. -/
theorem exec_keeps_coreInv {i : Instr} {s t : State} (hrun : s.run = .running) (hs : CoreInv s)
    (h : exec i s = .next t) : CoreInv t := by
  obtain ⟨hmem, hfl, hcause⟩ := id hs
  replace hcause : s.run = .running ∧ s.cause = none := by
    rcases hcause with hc | ⟨hhalted, _⟩
    · exact hc
    · cases hrun.symm.trans hhalted
  cases exec_effect h with
  | fault e hcode => exact coreInv_faulted hs nofun hcode
  | halt => exact coreInv_halt hs rfl nofun ⟨fun _ => rfl, fun _ => rfl⟩ nofun
  | compare a b => exact ⟨hmem, setCompareFlags_legal hfl a b, .inl hcause⟩
  | store d e m _ _ _ _ _ hm => exact ⟨Memory.wf_of_write hm hmem, hfl, .inl hcause⟩
  | push d m _ _ _ hm => exact ⟨Memory.wf_of_write hm hmem, hfl, .inl hcause⟩
  | call d m _ _ _ hm => exact ⟨Memory.wf_of_write hm hmem, hfl, .inl hcause⟩
  | _ => exact ⟨hmem, hfl, .inl hcause⟩

/-- Settles O52: a tick is nothing, a fault of the fetch, or an instruction of a Running machine. -/
theorem stepKeepsInv : Obligations.StepKeepsInv := by
  intro s t hs h
  rcases step_cases h with
    ⟨_, rfl⟩ | ⟨_, _, rfl⟩ | ⟨_, _, _, _, rfl⟩ | ⟨_, _, _, _, _, _, _, rfl⟩ | ⟨i, hrun, _, hexec⟩
  · exact hs
  · exact coreInv_faulted hs (fun _ => rfl) ⟨nofun, nofun⟩
  · exact coreInv_faulted hs nofun ⟨nofun, nofun⟩
  · exact coreInv_faulted hs nofun ⟨nofun, nofun⟩
  · exact exec_keeps_coreInv hrun hs hexec

/-- Settles O51: memory is empty, FL is clear, and the machine runs. -/
theorem resetMeetsInv : Obligations.ResetMeetsInv :=
  ⟨State.reset_mem_wf, .inl rfl, .inl ⟨rfl, rfl⟩⟩

end Sys2Proof.Machine
end

section
/-!
The reset state (70_reset_and_hazards.md R230) and the load port (10_state.md section 9): a sequence of loads is a
sequence of writes of memory, each inside it.
-/

namespace Sys2Proof.Machine

/-- Memory at reset lists no cell, so every address reads as an unlisted one (R53). -/
theorem State.reset_read {a : Nat} (h : a < 256) : State.reset.mem.read a = some 0x00 :=
  Memory.read_of_lt h

theorem State.reset_reg (i : Fin 8) : State.reset.reg i = 0 := by
  simp [State.reg, State.reset, Config.resetGpr]

/-- Settles O1: every field at its value. -/
theorem resetStateOfANewMachine : Obligations.ResetStateOfANewMachine :=
  ⟨rfl, fun _ => State.reset_read, State.reset_reg, rfl, rfl, rfl, rfl, rfl, rfl, rfl, rfl⟩

/-! ## Sequences of loads -/

theorem loadAll_cons_next {s t : State} {x : Host.Cell} {xs : List Host.Cell} :
    s.loadAll (x :: xs) = .next t ↔ ∃ m, s.mem.write x.1 x.2 = some m ∧ (s.setMem m).loadAll xs = .next t := by
  cases hwrite : s.mem.write x.1 x.2 <;> simp [State.loadAll, State.load, hwrite]

/-- The size of memory after a sequence of loads is the size before it. -/
theorem loadAll_size {xs : List Host.Cell} {s t : State} (h : s.loadAll xs = .next t) : t.mem.size = s.mem.size := by
  induction xs generalizing s with
  | nil => cases h; rfl
  | cons x xs ih =>
    obtain ⟨m, hm, hrest⟩ := loadAll_cons_next.mp h
    exact (ih hrest).trans (Memory.size_of_write hm)

/-- An address that no load names reads as before. -/
theorem loadAll_read_other {xs : List Host.Cell} {s t : State} {a : Nat} (ha : ∀ x ∈ xs, x.1 ≠ a)
    (h : s.loadAll xs = .next t) : t.mem.read a = s.mem.read a := by
  induction xs generalizing s with
  | nil => cases h; rfl
  | cons x xs ih =>
    obtain ⟨m, hm, hrest⟩ := loadAll_cons_next.mp h
    obtain ⟨hx, hxs⟩ := List.forall_mem_cons.mp ha
    exact (ih hxs hrest).trans (Memory.read_of_write_other hm hx.symm)

theorem exists_loadAll_of_lt {xs : List Host.Cell} {s : State} (h : ∀ x ∈ xs, x.1 < s.mem.size) :
    ∃ t, s.loadAll xs = .next t := by
  induction xs generalizing s with
  | nil => exact ⟨s, rfl⟩
  | cons x xs ih =>
    obtain ⟨hx, hxs⟩ := List.forall_mem_cons.mp h
    obtain ⟨m, hm⟩ := Memory.exists_write_of_lt x.2 hx
    obtain ⟨t, ht⟩ := ih (s := s.setMem m) fun y hy => Memory.size_of_write hm ▸ hxs y hy
    exact ⟨t, loadAll_cons_next.mpr ⟨m, hm, ht⟩⟩

/-- Settles O3: the last load of the address is a write that the loads after it do not touch, whatever came before. -/
theorem laterLoadReplacesEarlier : Obligations.LaterLoadReplacesEarlier := by
  refine ⟨fun s t a b c before between after hafter h => ⟨?_, loadAll_size h⟩, fun _ _ => exists_loadAll_of_lt,
    fun _ _ _ hout => load_refused.mpr ⟨hout, rfl⟩⟩
  obtain ⟨u, hlast, hrest⟩ := loadAll_append_next.mp h
  obtain ⟨v, _, hload⟩ := loadAll_append_next.mp hlast
  obtain ⟨m, hm, hu⟩ := loadAll_cons_next.mp hload
  cases hu
  exact (loadAll_read_other hafter hrest).trans (Memory.read_of_write_same hm)

end Sys2Proof.Machine
end

section
/-!
CMP (43_alu.md R142): with legal operands it writes FL by the formula of `setCompareFlags_eq`; the operand faults are
those of `exec_first_illegal` and `exec_second_illegal`.
-/

namespace Sys2Proof.Machine

theorem exec_cmp_of_legal {s : State} {rA rB : Byte} (hA : rA.toNat < 8) (hB : rB.toNat < 8) :
    exec (.cmp rA rB) s = .next ((s.setFl (setCompareFlags s.fl
      ((s.reg ⟨rA.toNat, hA⟩).toNat = (s.reg ⟨rB.toNat, hB⟩).toNat)
      ((s.reg ⟨rA.toNat, hA⟩).toNat > (s.reg ⟨rB.toNat, hB⟩).toNat)
      ((s.reg ⟨rA.toNat, hA⟩).toNat < (s.reg ⟨rB.toNat, hB⟩).toNat))).setPc (s.pc + 3)) := by
  change execCmp rA rB s = _
  rw [execCmp, aluBinary_of_legal hA hB, aluApply, alu_cmp]
  exact conclude_advance .cmp s _

/-- Settles O16: the three flag writes are the formula of R142. -/
theorem cmpSetsFlagsUnsigned : Obligations.CmpSetsFlagsUnsigned := by
  refine fun s rA rB => ⟨rfl, fun hA hB => ?_, exec_first_illegal s rfl, exec_second_illegal s rfl⟩
  rw [exec_cmp_of_legal hA hB, setCompareFlags_eq]
  simp only [decide_eq_true_eq]
  rfl

/-- Where bits 7:3 are zero, CMP leaves the one flag of its comparison. -/
theorem setCompareFlags_of_clear {fl : Byte} (h : fl &&& 0xF8 = 0) (x y : Nat) :
    setCompareFlags fl (x = y) (x > y) (x < y) = if x = y then 0x01 else if x > y then 0x02 else 0x04 := by
  rw [setCompareFlags_eq, h]
  rcases Nat.lt_trichotomy x y with hlt | heq | hgt
  · simp [hlt, Nat.ne_of_lt hlt, Nat.not_lt_of_gt hlt]
  · simp [heq]
  · simp [hgt, Nat.ne_of_gt hgt, Nat.not_lt_of_gt hgt]

/-- Settles O17: one comparison holds, and it is equality for a register with itself. -/
theorem cmpLeavesExactlyOneFlag : Obligations.CmpLeavesExactlyOneFlag := by
  intro s rA rB hclear hA hB
  refine ⟨_, exec_cmp_of_legal hA hB, ?oneFlag, ?sameRegister⟩
  all_goals simp only [State.setPc_fl, State.setFl_fl, setCompareFlags_of_clear hclear]
  case oneFlag => split_ifs <;> simp
  case sameRegister => rintro rfl; exact if_pos rfl

end Sys2Proof.Machine
end

section
/-!
What the stack manager restores (44_stack.md, 45_control.md, 46_interrupt.md): a POP after a PUSH, a RET after a CALL,
and an IRET after a frame of nine pushes.
-/

namespace Sys2Proof.Machine

/-- Settles O20: POP reads the byte that PUSH stored, at the SP that PUSH left. -/
theorem pushThenPopRestoresValueAndSp : Obligations.PushThenPopRestoresValueAndSp := by
  intro s rA rB hA hB hin
  obtain ⟨m, hpush, hsize, hstored, hother⟩ := exists_push_of_lt (s.reg ⟨rA.toNat, hA⟩) hin
  refine ⟨_, _, exec_push_of_ok hA hpush, exec_pop_of_read hB hstored, State.setReg_reg_same _ _ _,
    BitVec.sub_add_cancel s.sp 1, hstored, fun i hi => ?_, ⟨hsize, hother⟩, BitVec.add_assoc s.pc 2 2⟩
  exact State.setReg_reg_other _ _ fun h => hi (congrArg Fin.val h)

/-- Settles O26: RET reads the byte that CALL stored, at the SP that CALL left. -/
theorem retReturnsAfterCall : Obligations.RetReturnsAfterCall := by
  intro s rA hA hin
  obtain ⟨m, hpush, _, hstored, _⟩ := exists_push_of_lt (s.pc + 2) hin
  refine ⟨_, exec_call_of_ok hA hpush, rfl, fun w hsp hread => ?_⟩
  refine ⟨_, exec_ret_of_read (hread.trans hstored), rfl, ?_⟩
  rw [State.setPc_sp, State.setSp_sp, hsp]
  exact BitVec.sub_add_cancel s.sp 1

/-! ## A pushed frame -/

/-- The state `t` is `s` with the bytes `vs` on its stack, the first of them at SP minus 1 and so on down. -/
structure Pushed (vs : List Byte) (s t : State) : Prop where
  state : t = { s with mem := t.mem, sp := s.sp - BitVec.ofNat 8 vs.length }
  reads : ∀ k (hk : k < vs.length), t.mem.read (s.sp - BitVec.ofNat 8 (k + 1)).toNat = some vs[k]

theorem sub_ofNat_succ (a : Byte) (k : Nat) : a - BitVec.ofNat 8 k - 1 = a - BitVec.ofNat 8 (k + 1) := by
  rw [BitVec.ofNat_add, sub_add_eq_sub_sub]
  rfl

theorem sub_ofNat_add {k n : Nat} (a : Byte) (h : k ≤ n) :
    a - BitVec.ofNat 8 n + BitVec.ofNat 8 k = a - BitVec.ofNat 8 (n - k) := by
  obtain ⟨d, rfl⟩ := Nat.exists_eq_add_of_le' h
  rw [Nat.add_sub_cancel, BitVec.ofNat_add, sub_add_eq_sub_sub, BitVec.sub_add_cancel]

/-- Two different distances of at most 256 below SP are two different slots. -/
theorem sub_ofNat_succ_ne {a : Byte} {j k : Nat} (hjk : j < k) (hk : k < 256) :
    (a - BitVec.ofNat 8 (j + 1)).toNat ≠ (a - BitVec.ofNat 8 (k + 1)).toNat := by
  have ha := a.isLt
  simp only [BitVec.toNat_sub, BitVec.toNat_ofNat]
  omega

theorem foldlM_push_append {vs : List Byte} {v : Byte} {s t : State} :
    (vs ++ [v]).foldlM push s = .ok t ↔ ∃ u, vs.foldlM push s = .ok u ∧ push u v = .ok t := by
  simp [List.foldlM_append, bind_eq_ok]

/-- Pushing at most 256 bytes stacks them: each push leaves the slots of those before it. -/
theorem pushed_of_foldlM {vs : List Byte} {s t : State} (hlen : vs.length ≤ 256)
    (h : vs.foldlM push s = .ok t) : Pushed vs s t := by
  induction vs using List.reverseRecOn generalizing t with
  | nil => cases h; exact ⟨by simp, nofun⟩
  | append_singleton vs v ih =>
    rw [List.length_append, List.length_singleton] at hlen
    obtain ⟨u, hvs, hv⟩ := foldlM_push_append.mp h
    obtain ⟨hu, hreads⟩ := ih (Nat.le_of_succ_le hlen) hvs
    obtain ⟨m, hm, rfl⟩ := push_ok.mp hv
    have hsp : u.sp - 1 = s.sp - BitVec.ofNat 8 (vs.length + 1) := by rw [hu, ← sub_ofNat_succ]
    rw [hsp] at hm ⊢
    refine ⟨by rw [hu, List.length_append]; rfl, fun k hk => ?_⟩
    rw [State.setMem_mem]
    rw [List.length_append, List.length_singleton] at hk
    rcases Nat.lt_succ_iff_lt_or_eq.mp hk with hold | rfl
    · rw [Memory.read_of_write_other hm (sub_ofNat_succ_ne hold hlen), hreads k hold, List.getElem_append_left]
    · rw [Memory.read_of_write_same hm, List.getElem_concat_length rfl]

/-- From SP on, a pushed list lies backwards: slot `k` holds the last byte but `k`. -/
theorem Pushed.read_from_sp {vs : List Byte} {s t : State} (h : Pushed vs s t) {k : Nat} (hk : k < vs.length) :
    t.mem.read (t.sp + BitVec.ofNat 8 k).toNat = some vs[vs.length - 1 - k] := by
  have hsp : t.sp = s.sp - BitVec.ofNat 8 vs.length := by rw [h.state]
  have hslot : vs.length - k = vs.length - 1 - k + 1 := by omega
  rw [hsp, sub_ofNat_add s.sp (Nat.le_of_lt hk), hslot]
  exact h.reads _ (by omega)

/-- IRET takes its registers from the slots in falling order of their numbers (R191). -/
theorem iretOrder_val : ∀ k (hk : k < iretOrder.length), (iretOrder[k] : Nat) = 7 - k := by decide

/-- Settles O29: the frame lies backwards from SP on, so R7 comes first and the resume address last. -/
theorem iretUndoesAPushedFrame : Obligations.IretUndoesAPushedFrame := by
  intro s t resume x h
  have hlen : (resume :: x.toList).length = 9 := by simp
  have hframe : Pushed (resume :: x.toList) s t := pushed_of_foldlM (hlen ▸ by decide) h
  have hsp : t.sp + 9 = s.sp := by
    rw [hframe.state, hlen]
    exact BitVec.sub_add_cancel s.sp 9
  rw [← hsp]
  refine exec_iret_of_reads (fun k hk => ?register) ?resume
  case register =>
    have hk8 : k < 8 := hk
    have hindex : (resume :: x.toList).length - 1 - k = 7 - k + 1 := by omega
    rw [hframe.read_from_sp (by omega)]
    simp only [hindex, iretOrder_val k hk, List.getElem_cons_succ, Vector.getElem_toList, Fin.getElem_fin]
  case resume => exact (hframe.read_from_sp (k := 8) (by omega)).trans (by simp)

end Sys2Proof.Machine
end

section
/-!
What each instruction leaves unchanged (the frames of 41_load_store.md to 46_interrupt.md). For each component of the
state one lemma says which instructions write it, read off `exec_effect`; a frame is then those lemmas for its
instructions.
-/

namespace Sys2Proof

/-- Register `j` is one that the instruction writes: the register of its first operand, or for IRET any. -/
def Instr.writesReg (i : Instr) (j : Fin 8) : Prop :=
  match i with
  | .ldi a _ | .ld a _ | .add a _ | .sub a _ | .mul a _ | .div a _ | .inc a | .dec a | .pop a => a.toNat = j.val
  | .iret => True
  | _ => False

/-- What the instruction adds to SP when it does not halt. -/
def Instr.spChange : Instr → Byte
  | .push _ | .call _ => -1
  | .pop _ | .ret => 1
  | .iret => 9
  | _ => 0

end Sys2Proof

namespace Sys2Proof.Machine

/-- The address `a` is the one that the instruction stores at. -/
def storesAt (i : Instr) (s : State) (a : Nat) : Prop :=
  match i with
  | .st rA _ => ∃ d : Fin 8, rA.toNat = d.val ∧ a = s.address d
  | .push _ | .call _ => a = (s.sp - 1).toNat
  | _ => False

/-! ## Who writes what -/

section Writers
variable {i : Instr} {s t : State} (h : exec i s = .next t)

/-- The instructions of `Effect.writeReg` write the register of their first operand, and no SP. -/
theorem writesReg_and_spChange_of_writer {rA rB : Byte}
    (hi : i ∈ [.ldi rA rB, .ld rA rB, .add rA rB, .sub rA rB, .mul rA rB, .div rA rB, .inc rA, .dec rA]) :
    (∀ j, i.writesReg j ↔ rA.toNat = j.val) ∧ i.spChange = 0 := by
  simp only [List.mem_cons, List.not_mem_nil, or_false] at hi
  rcases hi with rfl | rfl | rfl | rfl | rfl | rfl | rfl | rfl <;> exact ⟨fun _ => Iff.rfl, rfl⟩

include h

/-- A register that the instruction does not write keeps its value. -/
theorem exec_reg {j : Fin 8} (hj : ¬ i.writesReg j) : t.reg j = s.reg j := by
  cases exec_effect h with
  | writeReg d v rA rB hd hi =>
    exact State.setReg_reg_other _ _ fun hjd => hj (((writesReg_and_spChange_of_writer hi).1 j).mpr (hjd ▸ hd))
  | pop d v rA hi hd =>
    subst hi
    exact State.setReg_reg_other _ _ fun hjd => hj (hjd ▸ hd)
  | iret regs v hi => subst hi; exact absurd trivial hj
  | _ => rfl

/-- Memory is as before, or as the one store of the instruction leaves it. -/
theorem exec_mem : t.mem = s.mem ∨ ∃ a v, storesAt i s a ∧ s.mem.write a v = some t.mem := by
  cases exec_effect h with
  | store d e m rA rB hi hd _ hm => subst hi; exact .inr ⟨_, _, ⟨d, hd, rfl⟩, hm⟩
  | push d m rA hi _ hm => subst hi; exact .inr ⟨_, _, rfl, hm⟩
  | call d m rA hi _ hm => subst hi; exact .inr ⟨_, _, rfl, hm⟩
  | _ => exact .inl rfl

theorem exec_mem_size : t.mem.size = s.mem.size := by
  rcases exec_mem h with hmem | ⟨_, _, _, hwrite⟩
  · rw [hmem]
  · exact Memory.size_of_write hwrite

/-- Memory is the same but at an address where the instruction stores. -/
theorem exec_sameMemoryExcept {x : Nat} (hx : ∀ a, storesAt i s a → a = x) : sameMemoryExcept x s t := by
  refine ⟨exec_mem_size h, fun b hb => ?_⟩
  rcases exec_mem h with hmem | ⟨a, _, ha, hwrite⟩
  · rw [hmem]
  · exact Memory.read_of_write_other hwrite fun hba => hb (hba.trans (hx a ha))

/-- An instruction that stores nowhere keeps memory. -/
theorem exec_sameMemory (hno : ∀ a, ¬ storesAt i s a) : sameMemory s t := by
  rcases exec_mem h with hmem | ⟨a, _, ha, _⟩
  · exact ⟨exec_mem_size h, fun _ => by rw [hmem]⟩
  · exact absurd ha (hno a)

/-- An instruction only enters Halted, or it keeps run state and cause and moves SP by its change. -/
theorem exec_halts_or : (∃ c, t = s.halt c) ∨ (sameStatus s t ∧ t.sp = s.sp + i.spChange) := by
  have still (hi : i.spChange = 0) : s.sp = s.sp + i.spChange := by rw [hi]; exact (BitVec.add_zero _).symm
  cases exec_effect h with
  | fault | halt => exact .inl ⟨_, rfl⟩
  | nothing hi => exact .inr ⟨⟨rfl, rfl⟩, still (by rcases hi with rfl | ⟨_, rfl, _⟩ | ⟨_, rfl, _⟩ <;> rfl)⟩
  | jump v hi => exact .inr ⟨⟨rfl, rfl⟩, still (by rcases hi with ⟨_, rfl⟩ | ⟨_, rfl, _⟩ | ⟨_, rfl, _⟩ <;> rfl)⟩
  | emit cs rA hi => exact .inr ⟨⟨rfl, rfl⟩, still (by rcases hi with rfl | rfl <;> rfl)⟩
  | writeReg d v rA rB _ hi => exact .inr ⟨⟨rfl, rfl⟩, still (writesReg_and_spChange_of_writer hi).2⟩
  | compare | raiseLine | store => subst i; exact .inr ⟨⟨rfl, rfl⟩, still rfl⟩
  | push | call => subst i; exact .inr ⟨⟨rfl, rfl⟩, BitVec.sub_eq_add_neg _ _⟩
  | pop | ret | iret => subst i; exact .inr ⟨⟨rfl, rfl⟩, rfl⟩

theorem exec_status (hrun : t.run ≠ .halted) : sameStatus s t := by
  rcases exec_halts_or h with ⟨c, rfl⟩ | ⟨hstatus, _⟩
  · exact absurd rfl hrun
  · exact hstatus

theorem exec_sp : t.sp = s.sp + i.spChange ∨ t.run = .halted ∧ t.sp = s.sp ∧ sameRegs s t := by
  rcases exec_halts_or h with ⟨c, rfl⟩ | ⟨_, hsp⟩
  · exact .inr ⟨rfl, rfl, fun _ => rfl⟩
  · exact .inl hsp

theorem exec_sp_or_halted : t.sp = s.sp + i.spChange ∨ t.run = .halted ∧ t.sp = s.sp :=
  (exec_sp h).imp id fun ⟨hrun, hsp, _⟩ => ⟨hrun, hsp⟩

theorem exec_sp_of_spChange_zero (hi : i.spChange = 0) : t.sp = s.sp := by
  rcases exec_sp h with hsp | ⟨_, hsp, _⟩
  · rw [hsp, hi]; exact BitVec.add_zero _
  · exact hsp

/-- No instruction writes IM (R36). -/
theorem exec_im : t.im = s.im := by
  cases exec_effect h <;> rfl

theorem exec_is_of_ne_int (hi : ∀ rA, i ≠ .int rA) : t.is = s.is := by
  rcases exec_is h with his | ⟨rA, hint, _⟩
  · exact his
  · exact absurd hint (hi rA)

theorem exec_out_of_ne (hprn : ∀ rA, i ≠ .prn rA) (hpra : ∀ rA, i ≠ .pra rA) : t.out = s.out := by
  rcases exec_out h with hout | ⟨rA, _, hi | hi, _⟩
  · exact hout
  · exact absurd hi (hprn rA)
  · exact absurd hi (hpra rA)

end Writers

/-! ## The frames -/

/-- Settles O40: the instructions that write the register of their first operand. -/
theorem registerWritersFrame : Obligations.RegisterWritersFrame := by
  intro s t rA rB i hi h
  obtain ⟨hwrites, hsp⟩ := writesReg_and_spChange_of_writer hi
  have hother : (∀ a b, i ≠ .cmp a b) ∧ (∀ a, i ≠ .int a) ∧ (∀ a, i ≠ .prn a) ∧ (∀ a, i ≠ .pra a) ∧
      ∀ a, ¬ storesAt i s a := by
    simp only [List.mem_cons, List.not_mem_nil, or_false] at hi
    rcases hi with rfl | rfl | rfl | rfl | rfl | rfl | rfl | rfl <;> exact ⟨nofun, nofun, nofun, nofun, nofun⟩
  obtain ⟨hcmp, hint, hprn, hpra, hstore⟩ := hother
  exact ⟨fun j hj => exec_reg h fun hw => hj ((hwrites j).mp hw).symm, exec_sameMemory h hstore, exec_fl hcmp h,
    exec_sp_of_spChange_zero h hsp, exec_im h, exec_is_of_ne_int h hint, exec_out_of_ne h hprn hpra, exec_status h⟩

/-- Settles O41: the instructions that write no register, no SP and no memory. -/
theorem noRegisterNoStoreFrame : Obligations.NoRegisterNoStoreFrame := by
  intro s t rA rB i hi h
  have hnone : (∀ j, ¬ i.writesReg j) ∧ (∀ a, ¬ storesAt i s a) ∧ i.spChange = 0 := by
    simp only [List.mem_cons, List.not_mem_nil, or_false] at hi
    rcases hi with rfl | rfl | rfl | rfl | rfl | rfl | rfl | rfl | rfl <;> exact ⟨nofun, nofun, rfl⟩
  obtain ⟨hwrites, hstore, hsp⟩ := hnone
  refine ⟨fun j => exec_reg h (hwrites j), exec_sameMemory h hstore, exec_sp_of_spChange_zero h hsp, exec_im h,
    fun hne => exec_fl (fun a b hcmp => hne ?_) h, fun hne => exec_is_of_ne_int h fun a hint => hne ?_,
    fun hneprn hnepra => exec_out_of_ne h (fun a hprn => hneprn ?_) fun a hpra => hnepra ?_, exec_status h⟩
  all_goals subst i; simpa using hi

/-- Settles O42: ST stores at the address its first register holds, and at none after an operand fault. -/
theorem storeFrame : Obligations.StoreFrame := by
  intro s t rA rB h
  refine ⟨fun j => exec_reg h nofun, exec_fl (i := .st rA rB) nofun h, exec_sp_of_spChange_zero h rfl, exec_im h,
    exec_is_of_ne_int h nofun, exec_out_of_ne h nofun nofun, exec_status h, fun d hd => ?_, fun hillegal => ?_⟩
  · refine exec_sameMemoryExcept h ?_
    rintro a ⟨d', hd', ha⟩
    rw [ha, Fin.ext (hd'.symm.trans (regOperand_eq_ok.mp hd))]
  · obtain ⟨detail, hfault⟩ :
        ∃ detail, exec (.st rA rB) s = .next (faulted s .invalidRegister (some 0x84) detail) := by
      by_cases hA : rA.toNat < 8
      · exact ⟨_, exec_second_illegal s rfl hA (hillegal.resolve_left (by omega))⟩
      · exact ⟨_, exec_first_illegal s rfl (by omega)⟩
    cases hfault.symm.trans h
    exact ⟨rfl, fun _ => rfl⟩

/-- Settles O43: the five instructions that move SP; PUSH and CALL store in the slot below it. -/
theorem stackInstructionsFrame : Obligations.StackInstructionsFrame := by
  intro s t rA
  refine ⟨fun i hi h => ?pushes, fun h => ⟨fun j hj => exec_reg h (Ne.symm hj), exec_sameMemory h nofun,
    exec_sp_or_halted h⟩, fun h => ⟨fun j => exec_reg h nofun, exec_sameMemory h nofun, exec_sp_or_halted h⟩,
    fun h => ⟨exec_sameMemory h nofun, exec_sp h⟩, fun i hi h => ?others⟩
  case pushes =>
    have hpush : (∀ j, ¬ i.writesReg j) ∧ (∀ a, storesAt i s a → a = (s.sp - 1).toNat) ∧ i.spChange = -1 := by
      simp only [List.mem_cons, List.not_mem_nil, or_false] at hi
      rcases hi with rfl | rfl <;> exact ⟨nofun, fun _ => id, rfl⟩
    obtain ⟨hwrites, hstore, hsp⟩ := hpush
    refine ⟨fun j => exec_reg h (hwrites j), exec_sameMemoryExcept h hstore, ?_⟩
    rw [sub_eq_add_neg, ← hsp]
    exact exec_sp_or_halted h
  case others =>
    have hother : (∀ a b, i ≠ .cmp a b) ∧ (∀ a, i ≠ .int a) ∧ (∀ a, i ≠ .prn a) ∧ ∀ a, i ≠ .pra a := by
      simp only [List.mem_cons, List.not_mem_nil, or_false] at hi
      rcases hi with rfl | rfl | rfl | rfl | rfl <;> exact ⟨nofun, nofun, nofun, nofun⟩
    obtain ⟨hcmp, hint, hprn, hpra⟩ := hother
    exact ⟨exec_fl hcmp h, exec_im h, exec_is_of_ne_int h hint, exec_out_of_ne h hprn hpra, exec_status h⟩

end Sys2Proof.Machine
end

section
/-!
SP is read by the stack instructions alone (10_state.md section 5): every rule of the others answers the same with
another SP put in, whatever its operand check and its memory read come to.
-/

namespace Sys2Proof.Machine

section SetSp
variable (m : Mnemonic) (s : State) (v : Byte)

/-- Another SP put in before a rule ends is another SP put in after it, when the steps of the rule agree. -/
theorem conclude_bind_setSp {α : Type} (x : Except Raise α) {g g' : α → Except Raise Flow}
    (hg : ∀ a, conclude m (s.setSp v) (g' a) = mapNext (fun t => t.setSp v) (conclude m s (g a))) :
    conclude m (s.setSp v) (x >>= g') = mapNext (fun t => t.setSp v) (conclude m s (x >>= g)) := by
  cases x with
  | error e => rfl
  | ok a => exact hg a

theorem memWrite_setSp (a : Nat) (b : Byte) :
    memWrite (s.setSp v) a b = (memWrite s a b).map fun t => t.setSp v := by
  simp only [memWrite, State.setSp_mem]
  cases s.mem.write a b <;> rfl

theorem conclude_memWrite_setSp (a : Nat) (b : Byte) :
    conclude m (s.setSp v) (memWrite (s.setSp v) a b >>= fun t => .ok (.advance t)) =
      mapNext (fun t => t.setSp v) (conclude m s (memWrite s a b >>= fun t => .ok (.advance t))) := by
  rw [memWrite_setSp]
  cases memWrite s a b <;> rfl

theorem conclude_aluApply_setSp (op : AluOp) (d e : Fin 8) :
    conclude m (s.setSp v) (aluApply op d e (s.setSp v)) =
      mapNext (fun t => t.setSp v) (conclude m s (aluApply op d e s)) := by
  simp only [aluApply, State.setSp_reg]
  cases alu op (s.reg d) (s.reg e) with
  | error x => cases x <;> rfl
  | ok r => cases r <;> rfl

theorem conclude_jumpIf_setSp (taken : Bool) (rA : Byte) :
    conclude m (s.setSp v) (jumpIf taken rA (s.setSp v)) =
      mapNext (fun t => t.setSp v) (conclude m s (jumpIf taken rA s)) :=
  conclude_bind_setSp m s v _ fun _ => by cases taken <;> rfl

theorem exec_setSp {i : Instr} (hpush : ∀ rA, i ≠ .push rA) (hpop : ∀ rA, i ≠ .pop rA) (hcall : ∀ rA, i ≠ .call rA)
    (hret : i ≠ .ret) (hiret : i ≠ .iret) : exec i (s.setSp v) = mapNext (fun t => t.setSp v) (exec i s) := by
  cases i with
  | push rA => exact absurd rfl (hpush rA)
  | pop rA => exact absurd rfl (hpop rA)
  | call rA => exact absurd rfl (hcall rA)
  | ret => exact absurd rfl hret
  | iret => exact absurd rfl hiret
  | nop | hlt => rfl
  | ldi | prn | pra | jmp => exact conclude_bind_setSp _ s v _ fun _ => rfl
  | ld => exact conclude_bind_setSp _ s v _ fun _ => conclude_bind_setSp _ s v _ fun _ => rfl
  | st => exact conclude_bind_setSp _ s v _ fun _ => conclude_memWrite_setSp _ s v _ _
  | int =>
    refine conclude_bind_setSp _ s v _ fun d => ?_
    by_cases hline : (s.reg d).toNat < 8
    · simp only [State.setSp_reg, hline, if_true]; rfl
    · simp only [State.setSp_reg, hline, if_false]; rfl
  | jeq | jne => exact conclude_jumpIf_setSp _ s v _ _
  | add | sub | mul | div | cmp => exact conclude_bind_setSp _ s v _ fun _ => conclude_aluApply_setSp _ s v _ _ _
  | inc | dec => exact conclude_bind_setSp _ s v _ fun _ => conclude_aluApply_setSp _ s v _ _ _

end SetSp

/-- Settles O47: `exec_setSp` for the reads; for the writes, the others change SP by 0. -/
theorem onlyStackInstructionsUseSp : Obligations.OnlyStackInstructionsUseSp := by
  intro i s v hpush hpop hcall hret hiret
  refine ⟨exec_setSp s v hpush hpop hcall hret hiret, fun t h => exec_sp_of_spChange_zero h ?_⟩
  cases i with
  | push rA => exact absurd rfl (hpush rA)
  | pop rA => exact absurd rfl (hpop rA)
  | call rA => exact absurd rfl (hcall rA)
  | ret => exact absurd rfl hret
  | iret => exact absurd rfl hiret
  | _ => rfl

end Sys2Proof.Machine
end

section
/-!
Runs of ticks (10_state.md section 7, 20_memory.md section 1, 60_exceptions.md, 70_reset_and_hazards.md sections 3
and 5).
-/

namespace Sys2Proof.Machine

/-! ## Every tick answers a next state -/

theorem exec_eq_conclude (i : Instr) (s : State) : ∃ r, exec i s = conclude i.mnemonic s r := by
  cases i with
  | nop => exact ⟨.ok (.advance s), rfl⟩
  | hlt => exact ⟨.ok .halt, rfl⟩
  | _ => exact ⟨_, rfl⟩

/-- Settles O34: the unchanged state, the fault of the fetch, or the end of an instruction (`conclude_next`). -/
theorem everyTickAnswersANextState : Obligations.EveryTickAnswersANextState := by
  intro s
  cases hrun : s.run with
  | halted => exact ⟨s, step_of_halted hrun⟩
  | running =>
    cases hfetch : fetch s with
    | error e => exact ⟨_, step_of_fetch_error hrun hfetch⟩
    | ok i =>
      obtain ⟨r, hr⟩ := exec_eq_conclude i s
      rw [step_of_fetch_ok hrun hfetch, hr]
      exact conclude_next _ s r

/-! ## What every state of a run has -/

/-- A property that every tick keeps holds of every state a run reaches. -/
theorem reaches_keeps {P : State → Prop} (hstep : ∀ t u, P t → step t = .next u → P u) {s t : State}
    (h : Reaches s t) (hs : P s) : P t := by
  induction h with
  | here => exact hs
  | tick _ hu ih => exact hstep _ _ ih hu

/-- Settles O33: the tick of a Halted machine answers that machine. -/
theorem haltedIsTerminal : Obligations.HaltedIsTerminal := by
  intro s t hhalted h
  have hstep := step_of_halted hhalted
  refine ⟨reaches_keeps (P := fun u => u = s) (fun u w hu hw => ?_) h rfl, hstep⟩
  subst hu
  cases hstep.symm.trans hw
  rfl

theorem step_mem_size {s t : State} (h : step s = .next t) : t.mem.size = s.mem.size := by
  rcases step_cases h with ⟨_, rfl⟩ | ⟨_, _, rfl⟩ | ⟨_, _, _, _, rfl⟩ | ⟨_, _, _, _, _, _, _, rfl⟩ | ⟨_, _, _, hexec⟩
  case inr.inr.inr.inr => exact exec_mem_size hexec
  all_goals rfl

/-- Settles O49: a tick keeps the size (`step_mem_size`). -/
theorem memorySizeIsFixed : Obligations.MemorySizeIsFixed :=
  fun _ _ h => reaches_keeps (fun _ _ ht hu => (step_mem_size hu).trans ht) h rfl

/-! ## OutOfBounds (R202) -/

/-- An OutOfBounds that an instruction itself raises is at a byte address outside memory. -/
theorem exec_outOfBounds {i : Instr} {s t : State} {c : HaltCause} (hrun : s.run = .running)
    (h : exec i s = .next t) (hhalt : t.run = .halted) (hcause : t.cause = some c) (hcode : c.code = .outOfBounds) :
    s.mem.size < 256 := by
  cases exec_effect h with
  | fault e _ _ hmem =>
    obtain rfl := Option.some.inj hcause
    obtain ⟨hout, hbyte⟩ := hmem hcode
    exact Nat.lt_of_le_of_lt hout hbyte
  | halt =>
    obtain rfl := Option.some.inj hcause
    cases hcode
  | _ => cases hrun.symm.trans hhalt

/-- Settles O39: PC and the address of an instruction's access are bytes, so only an operand's address is beyond. -/
theorem onlyOperandFetchOutOfBoundsAt256 : Obligations.OnlyOperandFetchOutOfBoundsAt256 := by
  intro s t c hrun hsize h hhalt hcause hcode
  have hpc : s.pc.toNat < 256 := s.pc.isLt
  rcases step_cases h with
    ⟨hhalted, _⟩ | ⟨_, hout, _⟩ | ⟨op, _, _, _, rfl⟩ | ⟨m, k, _, _, hk, hk', hout, rfl⟩ | ⟨i, _, _, hexec⟩
  · cases hrun.symm.trans hhalted
  · omega
  · obtain rfl := Option.some.inj hcause
    cases hcode
  · obtain rfl := Option.some.inj hcause
    refine ⟨?_, by omega, nofun⟩
    have haddr : s.pc.toNat + k = 0x100 ∨ s.pc.toNat + k = 0x101 := by omega
    exact haddr.imp (congrArg some) (congrArg some)
  · have hsmall := exec_outOfBounds hrun hexec hhalt hcause hcode
    omega

/-! ## A store into the next instruction (R66, R236) -/

/-- An ST of legal operands that does not halt is its write. -/
theorem exec_st_running {s t : State} {rA rB : Byte} (hA : rA.toNat < 8) (hB : rB.toNat < 8)
    (h : exec (.st rA rB) s = .next t) (hrun : t.run = .running) :
    ∃ m, s.mem.write (s.reg ⟨rA.toNat, hA⟩).toNat (s.reg ⟨rB.toNat, hB⟩) = some m ∧
      t = (s.setMem m).setPc (s.pc + 3) := by
  rcases Nat.lt_or_ge (s.reg ⟨rA.toNat, hA⟩).toNat s.mem.size with hin | hout
  · obtain ⟨m, hm⟩ := Memory.exists_write_of_lt (s.reg ⟨rB.toNat, hB⟩) hin
    cases (exec_st_of_write hA hB hm).symm.trans h
    exact ⟨m, hm, rfl⟩
  · cases (exec_st_of_outside hA hB hout).symm.trans h
    cases hrun

/-- Settles O50: after the store the encoding stands whole at the next PC. -/
theorem storeIsSeenByTheNextFetch : Obligations.StoreIsSeenByTheNextFetch := by
  intro s t rA rB hA hB i j _ h hrun haddr hbyte hothers
  obtain ⟨m, hm, rfl⟩ := exec_st_running hA hB h hrun
  rw [haddr] at hm
  refine step_of_encode_at_pc hrun fun k hk => ?_
  change m.read ((s.pc + 3).toNat + k) = _
  by_cases hkj : k = j
  · rw [hkj, Memory.read_of_write_same hm, hbyte]
  · rw [Memory.read_of_write_other hm fun heq => hkj (Nat.add_left_cancel heq), hothers k hk hkj]

/-! ## The end of a run (R238) -/

theorem run_succ {s t : State} (h : step s = .next t) (k : Nat) :
    Sys2Proof.core.run (k + 1) s = Sys2Proof.core.run k t := by
  have hstep : Sys2Proof.core.step s = .next t := h
  simp only [Host.Core.run, hstep]

theorem run_add {n k : Nat} {s t : State} (h : Sys2Proof.core.run n s = .next t) :
    Sys2Proof.core.run (n + k) s = Sys2Proof.core.run k t := by
  induction n generalizing s with
  | zero => cases h; rw [Nat.zero_add]
  | succ n ih =>
    obtain ⟨u, hu⟩ := everyTickAnswersANextState s
    rw [run_succ hu] at h
    rw [Nat.succ_add, run_succ hu, ih h]

theorem run_of_halted {s : State} (h : s.run = .halted) (k : Nat) : Sys2Proof.core.run k s = .next s := by
  induction k with
  | zero => rfl
  | succ k ih => rw [run_succ (step_of_halted h), ih]

/-- A run does not end before it ends: it was Running after every smaller number of ticks. -/
theorem EndsAfter.le {s t u : State} {n m : Nat} (hn : EndsAfter s n t) (hm : EndsAfter s m u) : m ≤ n := by
  obtain ⟨hrun, hhalted, _⟩ := hn
  obtain ⟨_, _, hbefore⟩ := hm
  refine Nat.not_lt.mp fun hlt => ?_
  obtain ⟨w, hw, hrunning⟩ := hbefore n hlt
  cases hrun.symm.trans hw
  cases hrunning.symm.trans hhalted

/-- Settles O58: neither of two ends comes before the other, and a Halted machine stays as it is. -/
theorem aRunHasOneEnd : Obligations.ARunHasOneEnd := by
  intro s t u n m hn hm
  obtain rfl : n = m := Nat.le_antisymm (hm.le hn) (hn.le hm)
  obtain ⟨hrun, hhalted, _⟩ := hn
  refine ⟨rfl, ?_, fun k => ?_⟩
  · cases hrun.symm.trans hm.1
    rfl
  · rw [run_add hrun, run_of_halted hhalted]

/-! ## The numbers of the halt codes (R200) -/

/-- Settles O56: the table of R200, in its order. -/
theorem haltCodeNumbers : Obligations.HaltCodeNumbers := by
  refine ⟨rfl, fun c => ?_⟩
  cases c <;> simp [HaltCode.number]

end Sys2Proof.Machine
end

section
/-!
The assembly line of an instruction (30_encoding.md R91). Every text in such a line is a word: not empty, and without
a space or a comma. So the cuts of `assemble` are where `disassemble` put its separators, and each word is read back as
the register or the numeral it spells.
-/

namespace Sys2Proof.Machine

/-! ## Numerals -/

theorem digitValue_digitChar (base : Nat) {d : Nat} (hd : d < 16) :
    digitValue base (Nat.digitChar d) = if d < base then some d else none := by
  interval_cases d <;> rfl

/-- The digits of a numeral, read from the left, are the value in its base. -/
theorem numeralFrom_map_digitChar {base : Nat} (hbase : base ≤ 16) {ds : List Nat} (hds : ∀ d ∈ ds, d < base)
    (n : Nat) :
    numeralFrom base n (ds.map Nat.digitChar) = some (ds.foldl (fun n d => base * n + d) n) := by
  induction ds generalizing n with
  | nil => rfl
  | cons d ds ih =>
    obtain ⟨hd, hds⟩ := List.forall_mem_cons.mp hds
    have hdigit : digitValue base (Nat.digitChar d) = some d := by
      rw [digitValue_digitChar base (Nat.lt_of_lt_of_le hd hbase), if_pos hd]
    rw [List.map_cons, numeralFrom, hdigit, Option.bind_some, ih hds, List.foldl_cons, Nat.mul_comm]

theorem numeral_map_digitChar {base : Nat} (hbase : base ≤ 16) {ds : List Nat} (hne : ds ≠ [])
    (hds : ∀ d ∈ ds, d < base) :
    numeral base (ds.map Nat.digitChar) = some (ds.foldl (fun n d => base * n + d) 0) := by
  rw [numeral, if_neg (by simpa using hne), numeralFrom_map_digitChar hbase hds]

/-- A decimal numeral is an immediate: it has none of the two letters that mark another base. -/
theorem immediateOfText_of_decimal {w : List Char} {v : Byte} (hx : 'x' ∉ w) (hb : 'b' ∉ w)
    (h : numeral 10 w = some v.toNat) : immediateOfText w = some v := by
  unfold immediateOfText
  split
  · simp at hx
  · simp at hb
  · simp [h, v.isLt]

theorem immediateOfText_of_hex {w : List Char} {v : Byte} (h : numeral 16 w = some v.toNat) :
    immediateOfText ('0' :: 'x' :: w) = some v := by
  simp [immediateOfText, h, v.isLt]

theorem immediateOfText_of_binary {w : List Char} {v : Byte} (h : numeral 2 w = some v.toNat) :
    immediateOfText ('0' :: 'b' :: w) = some v := by
  simp [immediateOfText, h, v.isLt]

/-! ## The decimal numeral of a byte -/

theorem char_digit {d : Nat} (h : d < 10) : Char.ofNat (digit d).toNat = Nat.digitChar d := by
  interval_cases d <;> rfl

/-- The numeral of a byte is a non-empty row of decimal digits that spell it. -/
theorem exists_spells_decimalText (v : Byte) :
    ∃ ds, ds ≠ [] ∧ Spells ds v ∧ decimalText v = ds.map Nat.digitChar := by
  obtain ⟨ds, hds, hdec⟩ := exists_spells_decimal v
  refine ⟨ds, ?_, hds, ?_⟩
  · rintro rfl
    simp [decimal] at hdec
  · rw [decimalText, hdec, List.map_map]
    exact List.map_congr_left fun d hd => char_digit (hds.lt_ten d hd)

/-- A text of one or more characters, none of them one that a line is cut at. -/
structure IsWord (w : List Char) : Prop where
  ne_nil : w ≠ []
  no_space : ' ' ∉ w
  no_comma : ',' ∉ w

/-- A decimal digit is no separator, and no letter that marks a base. -/
theorem digitChar_ne : ∀ d < 10, Nat.digitChar d ∉ [' ', ',', 'x', 'b'] := by decide

theorem notMem_decimalText {c : Char} (hc : c ∈ [' ', ',', 'x', 'b']) (v : Byte) : c ∉ decimalText v := by
  obtain ⟨ds, _, hds, htext⟩ := exists_spells_decimalText v
  rw [htext]
  intro hmem
  obtain ⟨d, hd, rfl⟩ := List.mem_map.mp hmem
  exact digitChar_ne d (hds.lt_ten d hd) hc

theorem isWord_decimalText (v : Byte) : IsWord (decimalText v) := by
  refine ⟨?_, notMem_decimalText (by decide) v, notMem_decimalText (by decide) v⟩
  obtain ⟨ds, hne, _, htext⟩ := exists_spells_decimalText v
  simpa [htext] using hne

theorem isWord_register (v : Byte) : IsWord ('R' :: decimalText v) := by
  obtain ⟨_, hspace, hcomma⟩ := isWord_decimalText v
  exact ⟨List.cons_ne_nil _ _, by simp [hspace], by simp [hcomma]⟩

theorem immediateOfText_decimalText (v : Byte) : immediateOfText (decimalText v) = some v := by
  refine immediateOfText_of_decimal (notMem_decimalText (by decide) v) (notMem_decimalText (by decide) v) ?_
  obtain ⟨ds, hne, hds, htext⟩ := exists_spells_decimalText v
  rw [htext, numeral_map_digitChar (by decide) hne hds.lt_ten, hds.value]

/-- R followed by a numeral is a register name for one digit below 8 only. -/
theorem registerOfText_decimalText (v : Byte) :
    registerOfText ('R' :: decimalText v) = if v.toNat < 8 then some v else none := by
  rcases decimal_cases v with ⟨h, hdec⟩ | ⟨hlo, _, hdec⟩ | ⟨hlo, hdec⟩
  · have htext : decimalText v = [Nat.digitChar v.toNat] := by
      rw [decimalText, hdec, List.map_singleton, char_digit h]
    rw [htext, registerOfText, digitValue_digitChar 8 (by omega)]
    split <;> simp
  · rw [decimalText, hdec, if_neg (by omega)]; rfl
  · rw [decimalText, hdec, if_neg (by omega)]; rfl

/-! ## Hexadecimal and binary numerals -/

theorem numeral_hex (v : Byte) : numeral 16 ([v.toNat / 16, v.toNat % 16].map Nat.digitChar) = some v.toNat := by
  have hv : v.toNat < 256 := v.isLt
  rw [numeral_map_digitChar (by decide) (by simp) (by simp; omega)]
  simp only [List.foldl_cons, List.foldl_nil, Option.some.injEq]
  omega

theorem numeral_binary (v : Byte) :
    numeral 2 ([7, 6, 5, 4, 3, 2, 1, 0].map fun k => if v.toNat.testBit k then '1' else '0') = some v.toNat := by
  have hdigit : (fun k => if v.toNat.testBit k then '1' else '0') =
      Nat.digitChar ∘ fun k => v.toNat / 2 ^ k % 2 := by
    funext k
    rw [Function.comp_apply, ← Nat.toNat_testBit]
    cases v.toNat.testBit k <;> rfl
  have hv : v.toNat < 256 := v.isLt
  rw [hdigit, ← List.map_map, numeral_map_digitChar (by decide) (by simp) (by simp; omega)]
  simp only [List.map_cons, List.map_nil, List.foldl_cons, List.foldl_nil, Option.some.injEq]
  omega

/-! ## Cutting a line -/

theorem dropSpaces_eq_self {w : List Char} (h : w.head? ≠ some ' ') : w.dropWhile (· = ' ') = w := by
  cases w with
  | nil => rfl
  | cons c cs => exact List.dropWhile_cons_of_neg (by simpa using h)

theorem trimSpaces_eq_self {w : List Char} (hhead : w.head? ≠ some ' ') (hlast : w.getLast? ≠ some ' ') :
    trimSpaces w = w := by
  rw [trimSpaces, dropSpaces_eq_self hhead, dropSpaces_eq_self (List.head?_reverse ▸ hlast), List.reverse_reverse]

theorem trimSpaces_space_cons (w : List Char) : trimSpaces (' ' :: w) = trimSpaces w := rfl

theorem cutAt_of_notMem {c : Char} {w : List Char} (h : c ∉ w) : cutAt c w = [w] := by
  induction w with
  | nil => rfl
  | cons x xs ih =>
    obtain ⟨hx, hxs⟩ := List.ne_and_not_mem_of_not_mem_cons h
    simp [cutAt, ih hxs, hx.symm]

theorem cutAt_ne_nil (c : Char) (w : List Char) : cutAt c w ≠ [] := by
  cases w with
  | nil => exact List.cons_ne_nil _ _
  | cons x xs =>
    rw [cutAt]
    split
    · exact List.cons_ne_nil _ _
    · split <;> exact List.cons_ne_nil _ _

/-- The first cut is at the first occurrence. -/
theorem cutAt_append {c : Char} {w : List Char} (h : c ∉ w) (xs : List Char) :
    cutAt c (w ++ c :: xs) = w :: cutAt c xs := by
  induction w with
  | nil =>
    obtain ⟨y, ys, hy⟩ := List.exists_cons_of_ne_nil (cutAt_ne_nil c xs)
    simp [cutAt, hy]
  | cons x w ih =>
    obtain ⟨hx, hw⟩ := List.ne_and_not_mem_of_not_mem_cons h
    simp [cutAt, ih hw, hx.symm]

namespace IsWord
variable {w : List Char} (h : IsWord w)
include h

theorem head?_append_ne (xs : List Char) : (w ++ xs).head? ≠ some ' ' := by
  obtain ⟨c, cs, rfl⟩ := List.exists_cons_of_ne_nil h.ne_nil
  have hc : ' ' ≠ c := List.ne_of_not_mem_cons h.no_space
  simpa using hc.symm

theorem getLast?_append_ne (xs : List Char) : (xs ++ w).getLast? ≠ some ' ' := by
  rw [List.getLast?_append_of_ne_nil xs h.ne_nil]
  exact fun hlast => h.no_space (List.mem_of_getLast? hlast)

theorem all_ne_space : ∀ c ∈ w, decide (c ≠ ' ') = true :=
  fun _ hc => decide_eq_true fun hspace => h.no_space (hspace ▸ hc)

theorem trimSpaces_eq : trimSpaces w = w :=
  trimSpaces_eq_self (List.append_nil w ▸ h.head?_append_ne []) (h.getLast?_append_ne [])

end IsWord

/-! ## The words of a line -/

theorem mnemonicOfText_mnemonicText (m : Mnemonic) : mnemonicOfText (mnemonicText m) = some m := by
  cases m <;> rfl

theorem isWord_mnemonicText (m : Mnemonic) : IsWord (mnemonicText m) := by
  cases m <;> exact ⟨by decide, by decide, by decide⟩

/-- What follows the mnemonic of a line. -/
abbrev afterMnemonic (line : List Char) : List Char := trimSpaces ((trimSpaces line).dropWhile (· ≠ ' '))

/-- `assemble` finds in the line the mnemonic `m` and the operands `ops`, each as it is written. -/
structure ReadsAs (line : List Char) (m : Mnemonic) (ops : List (List Char)) : Prop where
  mnemonic : mnemonicOfText ((trimSpaces line).takeWhile (· ≠ ' ')) = some m
  operands : (if afterMnemonic line = [] then [] else (cutAt ',' (afterMnemonic line)).map trimSpaces) = ops

section Assemble
variable {line : List Char} {m : Mnemonic} {a b : List Char}

theorem assemble_of_none (h : ReadsAs line m []) (hm : m.format = .z) : assemble line = some (m.instr 0 0) := by
  simp only [assemble, h.mnemonic, h.operands, Option.bind_some, hm]

theorem assemble_of_register (h : ReadsAs line m [a]) (hm : m.format = .r) :
    assemble line = (registerOfText a).map fun rA => m.instr rA 0 := by
  simp only [assemble, h.mnemonic, h.operands, Option.bind_some, hm]

theorem assemble_of_registers (h : ReadsAs line m [a, b]) (hm : m.format = .rr) :
    assemble line = (registerOfText a).bind fun rA => (registerOfText b).map fun rB => m.instr rA rB := by
  simp only [assemble, h.mnemonic, h.operands, Option.bind_some, hm]

theorem assemble_of_immediate (h : ReadsAs line m [a, b]) (hm : m.format = .ri) :
    assemble line = (registerOfText a).bind fun rA => (immediateOfText b).map fun v => m.instr rA v := by
  simp only [assemble, h.mnemonic, h.operands, Option.bind_some, hm]

end Assemble

/-- A mnemonic alone. -/
theorem readsAs_mnemonic (m : Mnemonic) : ReadsAs (mnemonicText m) m [] := by
  have hword := isWord_mnemonicText m
  have hno := hword.all_ne_space
  constructor
  · rw [hword.trimSpaces_eq, List.takeWhile_eq_self_iff.mpr hno, mnemonicOfText_mnemonicText]
  · rw [afterMnemonic, hword.trimSpaces_eq, List.dropWhile_eq_nil_iff.mpr hno]
    rfl

/-- A mnemonic, a space, and a text that begins with a word and ends with one: the operands are the cuts of it. -/
theorem readsAs_operands (m : Mnemonic) {a b xs ys rest : List Char} (ha : IsWord a) (hb : IsWord b)
    (hfirst : rest = a ++ xs) (hlast : rest = ys ++ b) :
    ReadsAs (mnemonicText m ++ ' ' :: rest) m ((cutAt ',' rest).map trimSpaces) := by
  have hword := isWord_mnemonicText m
  have hno := hword.all_ne_space
  have hline : trimSpaces (mnemonicText m ++ ' ' :: rest) = mnemonicText m ++ ' ' :: rest := by
    refine trimSpaces_eq_self (hword.head?_append_ne _) ?_
    rw [hlast, ← List.cons_append, ← List.append_assoc]
    exact hb.getLast?_append_ne _
  have hrest : trimSpaces rest = rest :=
    trimSpaces_eq_self (hfirst ▸ ha.head?_append_ne xs) (hlast ▸ hb.getLast?_append_ne ys)
  have hne : rest ≠ [] := by simp [hfirst, ha.ne_nil]
  constructor
  · rw [hline, List.takeWhile_append_of_pos hno]
    simp [mnemonicOfText_mnemonicText]
  · have hafter : afterMnemonic (mnemonicText m ++ ' ' :: rest) = rest := by
      rw [afterMnemonic, hline, List.dropWhile_append_of_pos hno]
      simp [trimSpaces_space_cons, hrest]
    rw [hafter, if_neg hne]

/-- One word as the operand. -/
theorem readsAs_one (m : Mnemonic) {a : List Char} (ha : IsWord a) :
    ReadsAs (mnemonicText m ++ ' ' :: a) m [a] := by
  have h := readsAs_operands m ha ha (List.append_nil a).symm (List.nil_append a).symm
  rwa [cutAt_of_notMem ha.no_comma, List.map_singleton, ha.trimSpaces_eq] at h

/-- Two words as the operands, separated by a comma and a space. -/
theorem readsAs_two (m : Mnemonic) {a b : List Char} (ha : IsWord a) (hb : IsWord b) :
    ReadsAs (mnemonicText m ++ ' ' :: (a ++ [',', ' '] ++ b)) m [a, b] := by
  have h := readsAs_operands m ha hb (List.append_assoc a [',', ' '] b) rfl
  have hcut : cutAt ',' (a ++ [',', ' '] ++ b) = [a, ' ' :: b] := by
    rw [List.append_assoc]
    refine (cutAt_append ha.no_comma (' ' :: b)).trans ?_
    rw [cutAt_of_notMem (by simp [hb.no_comma])]
  rwa [hcut, List.map_cons, List.map_singleton, trimSpaces_space_cons, ha.trimSpaces_eq, hb.trimSpaces_eq] at h

/-! ## The line of an instruction -/

section Lines
variable {i : Instr} {a b : Byte}

theorem assemble_disassemble_of_z (hf : i.mnemonic.format = .z) (hi : i.mnemonic.instr 0 0 = i) :
    assemble (disassemble i) = some i := by
  have hline : disassemble i = mnemonicText i.mnemonic := by simp [disassemble, hf]
  rw [hline, assemble_of_none (readsAs_mnemonic _) hf, hi]

theorem assemble_disassemble_of_r (hf : i.mnemonic.format = .r) (hops : i.operands = [a])
    (hi : i.mnemonic.instr a 0 = i) (ha : a.toNat < 8) : assemble (disassemble i) = some i := by
  have hline : disassemble i = mnemonicText i.mnemonic ++ ' ' :: 'R' :: decimalText a := by
    simp [disassemble, hf, hops]
  rw [hline, assemble_of_register (readsAs_one _ (isWord_register a)) hf, registerOfText_decimalText, if_pos ha,
    Option.map_some, hi]

theorem assemble_disassemble_of_rr (hf : i.mnemonic.format = .rr) (hops : i.operands = [a, b])
    (hi : i.mnemonic.instr a b = i) (ha : a.toNat < 8) (hb : b.toNat < 8) : assemble (disassemble i) = some i := by
  have hline : disassemble i =
      mnemonicText i.mnemonic ++ ' ' :: (('R' :: decimalText a) ++ [',', ' '] ++ ('R' :: decimalText b)) := by
    simp [disassemble, hf, hops]
  rw [hline, assemble_of_registers (readsAs_two _ (isWord_register a) (isWord_register b)) hf,
    registerOfText_decimalText, registerOfText_decimalText, if_pos ha, if_pos hb, Option.bind_some, Option.map_some, hi]

theorem assemble_disassemble_of_ri (hf : i.mnemonic.format = .ri) (hops : i.operands = [a, b])
    (hi : i.mnemonic.instr a b = i) (ha : a.toNat < 8) : assemble (disassemble i) = some i := by
  have hline : disassemble i =
      mnemonicText i.mnemonic ++ ' ' :: (('R' :: decimalText a) ++ [',', ' '] ++ decimalText b) := by
    simp [disassemble, hf, hops]
  rw [hline, assemble_of_immediate (readsAs_two _ (isWord_register a) (isWord_decimalText b)) hf,
    registerOfText_decimalText, immediateOfText_decimalText, if_pos ha, Option.bind_some, Option.map_some, hi]

end Lines

theorem assemble_disassemble {i : Instr} (h : i.wellFormed = true) : assemble (disassemble i) = some i := by
  cases i with
  | nop | hlt | ret | iret => exact assemble_disassemble_of_z rfl rfl
  | ld | st | add | sub | mul | div | cmp =>
    rw [wellFormed_of_second rfl, Bool.and_eq_true, decide_eq_true_eq, decide_eq_true_eq] at h
    exact assemble_disassemble_of_rr rfl rfl rfl h.1 h.2
  | ldi =>
    rw [wellFormed_of_single rfl, decide_eq_true_eq] at h
    exact assemble_disassemble_of_ri rfl rfl rfl h
  | _ =>
    rw [wellFormed_of_single rfl, decide_eq_true_eq] at h
    exact assemble_disassemble_of_r rfl rfl rfl h

/-- Settles O57: the line is read back word by word, and a numeral digit by digit. -/
theorem assemblyLineDenotesTheInstruction : Obligations.AssemblyLineDenotesTheInstruction :=
  ⟨fun _ => assemble_disassemble, fun v => ⟨registerOfText_decimalText v, immediateOfText_of_hex (numeral_hex v),
    immediateOfText_of_binary (numeral_binary v)⟩⟩

end Sys2Proof.Machine
end
